-- ==== Sys2Proof/Word.lean ====
section
/-! DEFINITION. The word types of SEBIS CORE: 00_scope.md rules R7, R10 and R11. -/

namespace Sys2Proof

/-- A register cell, a memory byte, an instruction byte: the spec's `u8` (R7, R11). -/
abbrev Byte := BitVec 8

/-- An address, the PC, LRAP: the spec's `u16` (R7, R11). -/
abbrev Addr := BitVec 16

/-- The one-bit M register: the spec's `bit` (R7, R24). -/
abbrev Bit := BitVec 1

end Sys2Proof
end

