-- ==== Sys2Proof/Syntax.lean ====
section
/-! DEFINITION. The instruction set as syntax: the 25 opcodes (00_scope.md R2), the size classes and
address modes (30_encoding.md R81, R83), the rows of an ISA table (R91), and one constructor of `Instr`
for each row of spec/opcode_table.json. -/

namespace Sys2Proof

/-- The 25 machine opcodes, in the order of the spec's list (00_scope.md R2). -/
inductive Opcode where
  | nop | lda | ldb | sta | stb | stc | syscall | abc | mul | jmp | jz | jnz | cmp | cpl
  | land | lxor | lor | hlt | panic | mbnkrom | mbnkram | zero | ldl | ldh | cld
  deriving DecidableEq, Repr

/-- All 25 opcodes, in the order of the spec's list (00_scope.md R2). -/
def Opcode.all : List Opcode :=
  [.nop, .lda, .ldb, .sta, .stb, .stc, .syscall, .abc, .mul, .jmp, .jz, .jnz, .cmp, .cpl,
   .land, .lxor, .lor, .hlt, .panic, .mbnkrom, .mbnkram, .zero, .ldl, .ldh, .cld]

/-- Size classes: how many control bytes an encoding has (30_encoding.md R81, R84). -/
inductive SizeClass where
  | short | long | extra
  deriving DecidableEq, Repr

/-- Address modes: how many operand bytes follow (30_encoding.md R81, R83). -/
inductive AddressMode where
  | null | register | constant | memory
  deriving DecidableEq, Repr

/-- The two modes without operand bytes, both legal for every zero-operand opcode and alike in effect
(30_encoding.md R89, R94). -/
inductive ImplicitMode where
  | null | register
  deriving DecidableEq, Repr

/-- An assembled operand: nothing (NULL or REGISTER), `imm8`, or `addr16` (30_encoding.md R87 to R89). -/
inductive Operand where
  | implicit (m : ImplicitMode)
  | constant (imm : Byte)
  | memory (addr : Addr)
  deriving DecidableEq, Repr

/-- One row of an ISA table: an opcode, its size class and its fragment tuple, `frag0` first
(00_scope.md R8, 30_encoding.md R84, R91). -/
structure IsaEntry where
  op : Opcode
  sizeClass : SizeClass
  frags : List Byte
  deriving DecidableEq, Repr

/-- The parameter `ISA_TABLE` (00_scope.md R8, 30_encoding.md R91). -/
abbrev IsaTable := List IsaEntry

/-- Instructions, one constructor for each row of spec/opcode_table.json. `f` is the flag bit of an opcode
that ignores it (30_encoding.md R82) and `m` the mode of a zero-operand opcode (R94): neither changes what
the instruction does, and both are kept so that an encoding loses no bit. -/
inductive Instr where
  /-- NOP (43_system.md R190). -/
  | nop (f : Bool) (m : ImplicitMode)
  /-- LDA, CONSTANT form (40_load_store.md R120). -/
  | ldaConst (f : Bool) (imm : Byte)
  /-- LDA, MEMORY form (40_load_store.md R120). -/
  | ldaMem (f : Bool) (addr : Addr)
  /-- LDB, CONSTANT form (40_load_store.md R121). -/
  | ldbConst (f : Bool) (imm : Byte)
  /-- LDB, MEMORY form (40_load_store.md R121). -/
  | ldbMem (f : Bool) (addr : Addr)
  /-- STA (40_load_store.md R122). -/
  | sta (f : Bool) (addr : Addr)
  /-- STB (40_load_store.md R123). -/
  | stb (f : Bool) (addr : Addr)
  /-- STC (40_load_store.md R124). -/
  | stc (f : Bool) (addr : Addr)
  /-- SYSCALL (43_system.md R191). -/
  | syscall (f : Bool) (m : ImplicitMode)
  /-- ABC with flag 0: add (41_arith_logic.md R140). -/
  | abc (m : ImplicitMode)
  /-- SUB, which is ABC with flag 1: subtract (41_arith_logic.md R140). -/
  | sub (m : ImplicitMode)
  /-- MUL with flag 0: multiply (41_arith_logic.md R141). -/
  | mul (m : ImplicitMode)
  /-- DIV, which is MUL with flag 1: divide (41_arith_logic.md R141). -/
  | div (m : ImplicitMode)
  /-- JMP (42_control.md R170). -/
  | jmp (f : Bool) (addr : Addr)
  /-- JZ (42_control.md R171). -/
  | jz (f : Bool) (addr : Addr)
  /-- JNZ (42_control.md R172). -/
  | jnz (f : Bool) (addr : Addr)
  /-- CMP with flag 0: equal (41_arith_logic.md R142). -/
  | cmpEq (m : ImplicitMode)
  /-- CMP with flag 1: unsigned less-than (41_arith_logic.md R142). -/
  | cmpLt (m : ImplicitMode)
  /-- CPL with flag 0: complement A (41_arith_logic.md R143). -/
  | cplA (m : ImplicitMode)
  /-- CPL with flag 1: complement B (41_arith_logic.md R143). -/
  | cplB (m : ImplicitMode)
  /-- AND (41_arith_logic.md R144). -/
  | andAB (f : Bool) (m : ImplicitMode)
  /-- XOR (41_arith_logic.md R145). -/
  | xorAB (f : Bool) (m : ImplicitMode)
  /-- OR (41_arith_logic.md R146). -/
  | orAB (f : Bool) (m : ImplicitMode)
  /-- HLT (42_control.md R176). -/
  | hlt (f : Bool) (m : ImplicitMode)
  /-- PANIC (42_control.md R177). -/
  | panic (f : Bool) (m : ImplicitMode)
  /-- MBNKROM (43_system.md R192). -/
  | mbnkrom (f : Bool) (m : ImplicitMode)
  /-- MBNKRAM (43_system.md R193). -/
  | mbnkram (f : Bool) (m : ImplicitMode)
  /-- ZERO (41_arith_logic.md R149). -/
  | zero (f : Bool) (m : ImplicitMode)
  /-- LDL, CONSTANT form (40_load_store.md R127). -/
  | ldlConst (f : Bool) (imm : Byte)
  /-- LDL, MEMORY form (40_load_store.md R127). -/
  | ldlMem (f : Bool) (addr : Addr)
  /-- LDH, CONSTANT form (40_load_store.md R128). -/
  | ldhConst (f : Bool) (imm : Byte)
  /-- LDH, MEMORY form (40_load_store.md R128). -/
  | ldhMem (f : Bool) (addr : Addr)
  /-- CLD (41_arith_logic.md R150). -/
  | cld (f : Bool) (m : ImplicitMode)
  deriving DecidableEq, Repr

end Sys2Proof
end

