-- ==== Sys2Proof/Config.lean ====
section
/-! DEFINITION. The parameters a model takes (00_scope.md R8), as plain data. Their defaults are in
Sys2Proof/Machine/Defaults.lean. The spec leaves no value undefined, so there is no free value here. -/

namespace Sys2Proof

/-- A region rule (20_memory.md R52); `highBound` is inclusive. -/
structure RegionRule where
  lowBound : Addr
  highBound : Addr
  disallowRead : Bool
  disallowWrite : Bool
  disallowExecute : Bool
  deriving DecidableEq, Repr

/-- What a trappable fault does (60_exceptions.md R205). -/
inductive ViolationPolicy where
  | trap | halt
  deriving DecidableEq, Repr

/-- The two capability flags of a register cell (10_state.md R26). -/
structure RegCap where
  readable : Bool
  writable : Bool
  deriving DecidableEq, Repr

/-- The parameter `REG_CAPS`: the flags of each cell, those of LRAP given by its two halves
(10_state.md R25, R26). -/
structure RegCaps where
  a : RegCap
  b : RegCap
  c : RegCap
  l : RegCap
  h : RegCap
  m : RegCap
  lrapH : RegCap
  lrapL : RegCap
  deriving DecidableEq, Repr

/-- Every parameter of 00_scope.md R8. They do not change while the CPU runs (10_state.md R31, R35). -/
structure Config where
  /-- `ISA_TABLE` (30_encoding.md R91, R92). -/
  isaTable : IsaTable
  /-- `REGIONS` (20_memory.md R52). -/
  regions : List RegionRule
  /-- `VIOLATION_POLICY` (60_exceptions.md R205). -/
  policy : ViolationPolicy
  /-- `STORE_BY_NAME` (40_load_store.md R125). -/
  storeByName : Bool
  /-- `REG_CAPS` (10_state.md R26). -/
  regCaps : RegCaps
  /-- `INIT_ADDR`, the reset PC (70_reset_and_hazards.md R243). -/
  initAddr : Addr
  /-- `PANIC_ADDR`, the trap and PANIC target (10_state.md R32). -/
  panicAddr : Addr
  /-- `END_ADDR`, which no rule of the CPU reads (42_control.md R178). -/
  endAddr : Addr
  /-- `THROTTLE`, a delay no rule reads (30_encoding.md R99); the unit is the implementation's. -/
  throttle : Nat
  /-- `MAX_ROM_SIZE` (70_reset_and_hazards.md R249). -/
  maxRomSize : Addr
  /-- `VERIFY_HASH` (70_reset_and_hazards.md R244). -/
  verifyHash : Bool
  deriving DecidableEq, Repr

end Sys2Proof
end

