-- ==== Sys2Proof/WellFormed.lean ====
section
/-! DEFINITION. Well-formedness: which ISA tables are admitted (30_encoding.md R92), and which instructions
a table can encode. -/

namespace Sys2Proof

/-- Control bytes of a size class: `ctl(sc)` (30_encoding.md R85). -/
def SizeClass.controlBytes : SizeClass → Nat
  | .short => 1
  | .long => 2
  | .extra => 3

/-- The opcode of an instruction. SUB is ABC and DIV is MUL (30_encoding.md R111). -/
def Instr.opcode : Instr → Opcode
  | .nop _ _ => .nop
  | .ldaConst _ _ => .lda
  | .ldaMem _ _ => .lda
  | .ldbConst _ _ => .ldb
  | .ldbMem _ _ => .ldb
  | .sta _ _ => .sta
  | .stb _ _ => .stb
  | .stc _ _ => .stc
  | .syscall _ _ => .syscall
  | .abc _ => .abc
  | .sub _ => .abc
  | .mul _ => .mul
  | .div _ => .mul
  | .jmp _ _ => .jmp
  | .jz _ _ => .jz
  | .jnz _ _ => .jnz
  | .cmpEq _ => .cmp
  | .cmpLt _ => .cmp
  | .cplA _ => .cpl
  | .cplB _ => .cpl
  | .andAB _ _ => .land
  | .xorAB _ _ => .lxor
  | .orAB _ _ => .lor
  | .hlt _ _ => .hlt
  | .panic _ _ => .panic
  | .mbnkrom _ _ => .mbnkrom
  | .mbnkram _ _ => .mbnkram
  | .zero _ _ => .zero
  | .ldlConst _ _ => .ldl
  | .ldlMem _ _ => .ldl
  | .ldhConst _ _ => .ldh
  | .ldhMem _ _ => .ldh
  | .cld _ _ => .cld

/-- The fragments fit their size class: one for each control byte, and `frag0` in 0..7. The ranges of the
further fragments are those of their type (30_encoding.md R92). -/
def IsaEntry.fits (e : IsaEntry) : Bool :=
  e.frags.length == e.sizeClass.controlBytes &&
    (match e.frags with
     | f0 :: _ => decide (f0.toNat < 8)
     | [] => false)

/-- No two entries share both size class and fragment tuple (30_encoding.md R92). -/
def IsaTable.encodingsDistinct : IsaTable → Bool
  | [] => true
  | e :: t =>
    t.all (fun e' => !(e'.sizeClass == e.sizeClass && e'.frags == e.frags)) &&
      IsaTable.encodingsDistinct t

/-- Exactly one entry for each of the 25 opcodes (30_encoding.md R92). -/
def IsaTable.coversOpcodes (t : IsaTable) : Bool :=
  Opcode.all.all (fun op => (t.filter (fun e => e.op == op)).length == 1)

/-- The tables R92 admits: a claim about decoding names this check. -/
def IsaTable.admitted (t : IsaTable) : Bool :=
  t.coversOpcodes && t.all IsaEntry.fits && t.encodingsDistinct

/-- `encodingOf(opcode)`: the entry of an opcode (30_encoding.md R91, R92). -/
def IsaTable.entryOf (t : IsaTable) (op : Opcode) : Option IsaEntry :=
  t.find? (fun e => e.op == op)

/-- An instruction is well formed under a table when the table has an entry for its opcode whose fragments
fit. The flag, the mode and the operand of an instruction are legal by the shape of its constructor
(30_encoding.md R94). Under an admitted table every instruction is well formed. -/
def Instr.wf (t : IsaTable) (i : Instr) : Bool :=
  match t.entryOf i.opcode with
  | some e => e.fits
  | none => false

end Sys2Proof
end

