-- ==== Sys2Proof/Decode.lean ====
section
/-! DEFINITION. The fields of control byte 0, the decoder, the encoder and the default ISA table
(30_encoding.md R80 to R101). The decoder is total on byte lists and rejects by name. -/

namespace Sys2Proof

/-! ### The fields of control byte 0 -/

/-- Size class, bits 7:6; 0 is no size class (30_encoding.md R81, R93). -/
def sizeClassOf (b0 : Byte) : Option SizeClass :=
  if b0.extractLsb' 6 2 = 1#2 then some .short
  else if b0.extractLsb' 6 2 = 2#2 then some .long
  else if b0.extractLsb' 6 2 = 3#2 then some .extra
  else none

/-- Flag, bit 5 (30_encoding.md R81, R82). -/
def flagOf (b0 : Byte) : Bool := b0.getLsbD 5

/-- Address mode, bits 4:3 (30_encoding.md R81, R83). -/
def addressModeOf (b0 : Byte) : AddressMode :=
  if b0.extractLsb' 3 2 = 0#2 then .null
  else if b0.extractLsb' 3 2 = 1#2 then .register
  else if b0.extractLsb' 3 2 = 2#2 then .constant
  else .memory

/-- Fragment of byte 0, bits 2:0, as a number 0..7 (30_encoding.md R81). -/
def frag0Of (b0 : Byte) : Byte := (b0.extractLsb' 0 3).setWidth 8

/-- The two bits that write a size class (30_encoding.md R81). -/
def SizeClass.bits : SizeClass → BitVec 2
  | .short => 1#2
  | .long => 2#2
  | .extra => 3#2

/-- The two bits that write an address mode (30_encoding.md R81). -/
def AddressMode.bits : AddressMode → BitVec 2
  | .null => 0#2
  | .register => 1#2
  | .constant => 2#2
  | .memory => 3#2

/-- Control byte 0 from its fields, most significant first (30_encoding.md R81). -/
def controlByte (sc : SizeClass) (f : Bool) (am : AddressMode) (frag0 : Byte) : Byte :=
  sc.bits ++ BitVec.ofBool f ++ am.bits ++ frag0.extractLsb' 0 3

/-- Operand bytes of an address mode: `opd(am)` (30_encoding.md R83, R85). -/
def AddressMode.operandBytes : AddressMode → Nat
  | .null => 0
  | .register => 0
  | .constant => 1
  | .memory => 2

/-- Instruction length from control byte 0 alone; an encoding with `sc = 0` has none
(30_encoding.md R85). -/
def lengthOf (b0 : Byte) : Option Nat :=
  (sizeClassOf b0).map (fun sc => sc.controlBytes + (addressModeOf b0).operandBytes)

/-! ### Operands -/

/-- Two bytes as one 16-bit value, high byte first (30_encoding.md R88, 20_memory.md R60). -/
def pair (hi lo : Byte) : Addr := hi ++ lo

/-- Bits 15:8 of a 16-bit value. -/
def highByte (v : Addr) : Byte := v.extractLsb' 8 8

/-- Bits 7:0 of a 16-bit value. -/
def lowByte (v : Addr) : Byte := v.extractLsb' 0 8

/-- The mode of an implicit operand (30_encoding.md R89). -/
def ImplicitMode.mode : ImplicitMode → AddressMode
  | .null => .null
  | .register => .register

/-- The address mode of an operand (30_encoding.md R83). -/
def Operand.mode : Operand → AddressMode
  | .implicit m => m.mode
  | .constant _ => .constant
  | .memory _ => .memory

/-- The operand bytes, an address high byte first (30_encoding.md R83, R87, R88). -/
def Operand.bytes : Operand → List Byte
  | .implicit _ => []
  | .constant imm => [imm]
  | .memory addr => [highByte addr, lowByte addr]

/-- Takes the operand bytes of a mode off the front; `none` where too few remain
(30_encoding.md R83, R87, R88). -/
def takeOperand : AddressMode → List Byte → Option (Operand × List Byte)
  | .null, bs => some (.implicit .null, bs)
  | .register, bs => some (.implicit .register, bs)
  | .constant, imm :: bs => some (.constant imm, bs)
  | .memory, hi :: lo :: bs => some (.memory (pair hi lo), bs)
  | _, _ => none

/-- Takes `n` further control bytes off the front; `none` where too few remain (30_encoding.md R84). -/
def takeFragments : Nat → List Byte → Option (List Byte × List Byte)
  | 0, bs => some ([], bs)
  | _ + 1, [] => none
  | n + 1, b :: bs => (takeFragments n bs).map (fun r => (b :: r.1, r.2))

/-! ### Opcodes -/

/-- The reverse lookup in an ISA table (30_encoding.md R91); `none` is NotFound. -/
def lookup (t : IsaTable) (sc : SizeClass) (frags : List Byte) : Option Opcode :=
  (t.find? (fun e => e.sizeClass == sc && e.frags == frags)).map IsaEntry.op

/-- The legal address modes of an opcode: the table of 30_encoding.md R94. -/
def Opcode.legalModes : Opcode → List AddressMode
  | .lda | .ldb | .ldl | .ldh => [.constant, .memory]
  | .sta | .stb | .stc => [.memory]
  | .jmp | .jz | .jnz => [.memory]
  | .nop | .syscall | .abc | .mul | .cmp | .cpl | .land | .lxor | .lor | .hlt | .panic | .mbnkrom
  | .mbnkram | .zero | .cld => [.null, .register]

/-- The instruction of an opcode, a flag and an operand; `none` for a mode outside 30_encoding.md R94.
ABC, MUL, CMP and CPL read the flag; every other opcode ignores it (R82). -/
def instrOf (op : Opcode) (f : Bool) (o : Operand) : Option Instr :=
  match op, o with
  | .nop, .implicit m => some (.nop f m)
  | .lda, .constant imm => some (.ldaConst f imm)
  | .lda, .memory addr => some (.ldaMem f addr)
  | .ldb, .constant imm => some (.ldbConst f imm)
  | .ldb, .memory addr => some (.ldbMem f addr)
  | .sta, .memory addr => some (.sta f addr)
  | .stb, .memory addr => some (.stb f addr)
  | .stc, .memory addr => some (.stc f addr)
  | .syscall, .implicit m => some (.syscall f m)
  | .abc, .implicit m => some (if f then .sub m else .abc m)
  | .mul, .implicit m => some (if f then .div m else .mul m)
  | .jmp, .memory addr => some (.jmp f addr)
  | .jz, .memory addr => some (.jz f addr)
  | .jnz, .memory addr => some (.jnz f addr)
  | .cmp, .implicit m => some (if f then .cmpLt m else .cmpEq m)
  | .cpl, .implicit m => some (if f then .cplB m else .cplA m)
  | .land, .implicit m => some (.andAB f m)
  | .lxor, .implicit m => some (.xorAB f m)
  | .lor, .implicit m => some (.orAB f m)
  | .hlt, .implicit m => some (.hlt f m)
  | .panic, .implicit m => some (.panic f m)
  | .mbnkrom, .implicit m => some (.mbnkrom f m)
  | .mbnkram, .implicit m => some (.mbnkram f m)
  | .zero, .implicit m => some (.zero f m)
  | .ldl, .constant imm => some (.ldlConst f imm)
  | .ldl, .memory addr => some (.ldlMem f addr)
  | .ldh, .constant imm => some (.ldhConst f imm)
  | .ldh, .memory addr => some (.ldhMem f addr)
  | .cld, .implicit m => some (.cld f m)
  | _, _ => none

/-- The flag bit an instruction's encoding carries (30_encoding.md R82). -/
def Instr.flag : Instr → Bool
  | .nop f _ => f
  | .ldaConst f _ => f
  | .ldaMem f _ => f
  | .ldbConst f _ => f
  | .ldbMem f _ => f
  | .sta f _ => f
  | .stb f _ => f
  | .stc f _ => f
  | .syscall f _ => f
  | .abc _ => false
  | .sub _ => true
  | .mul _ => false
  | .div _ => true
  | .jmp f _ => f
  | .jz f _ => f
  | .jnz f _ => f
  | .cmpEq _ => false
  | .cmpLt _ => true
  | .cplA _ => false
  | .cplB _ => true
  | .andAB f _ => f
  | .xorAB f _ => f
  | .orAB f _ => f
  | .hlt f _ => f
  | .panic f _ => f
  | .mbnkrom f _ => f
  | .mbnkram f _ => f
  | .zero f _ => f
  | .ldlConst f _ => f
  | .ldlMem f _ => f
  | .ldhConst f _ => f
  | .ldhMem f _ => f
  | .cld f _ => f

/-- The operand an instruction's encoding carries (30_encoding.md R83). -/
def Instr.operand : Instr → Operand
  | .nop _ m => .implicit m
  | .ldaConst _ imm => .constant imm
  | .ldaMem _ addr => .memory addr
  | .ldbConst _ imm => .constant imm
  | .ldbMem _ addr => .memory addr
  | .sta _ addr => .memory addr
  | .stb _ addr => .memory addr
  | .stc _ addr => .memory addr
  | .syscall _ m => .implicit m
  | .abc m => .implicit m
  | .sub m => .implicit m
  | .mul m => .implicit m
  | .div m => .implicit m
  | .jmp _ addr => .memory addr
  | .jz _ addr => .memory addr
  | .jnz _ addr => .memory addr
  | .cmpEq m => .implicit m
  | .cmpLt m => .implicit m
  | .cplA m => .implicit m
  | .cplB m => .implicit m
  | .andAB _ m => .implicit m
  | .xorAB _ m => .implicit m
  | .orAB _ m => .implicit m
  | .hlt _ m => .implicit m
  | .panic _ m => .implicit m
  | .mbnkrom _ m => .implicit m
  | .mbnkram _ m => .implicit m
  | .zero _ m => .implicit m
  | .ldlConst _ imm => .constant imm
  | .ldlMem _ addr => .memory addr
  | .ldhConst _ imm => .constant imm
  | .ldhMem _ addr => .memory addr
  | .cld _ m => .implicit m

/-- The triple of the source's round trip: opcode, flag, address mode (30_encoding.md R104). -/
def Instr.triple (i : Instr) : Opcode × Bool × AddressMode := (i.opcode, i.flag, i.operand.mode)

/-! ### The decoder -/

/-- Why the decoder rejects bytes. -/
inductive Reject where
  /-- Fewer bytes than control byte 0 asks for. A step never sees it: it fetches them all. -/
  | truncated
  /-- Control byte 0 has `sc = 0` (30_encoding.md R93). -/
  | sizeClassZero
  /-- The lookup finds no opcode (30_encoding.md R91, R100). -/
  | notFound
  /-- The opcode does not admit the address mode (30_encoding.md R94). -/
  | illegalAddressMode
  deriving DecidableEq, Repr

/-- Dispatch's lookup and legality check on collected fields (30_encoding.md R91, R94, R97). -/
def resolve (t : IsaTable) (sc : SizeClass) (frags : List Byte) (f : Bool) (o : Operand) :
    Except Reject Instr :=
  match lookup t sc frags with
  | none => .error .notFound
  | some op =>
    match instrOf op f o with
    | none => .error .illegalAddressMode
    | some i => .ok i

/-- Decodes one instruction from the front of a byte list, in the stage order of 30_encoding.md R90 and
R97: fields of byte 0, further control bytes, operand bytes, lookup, legality of the mode. -/
def decode (t : IsaTable) : List Byte → Except Reject (Instr × List Byte)
  | [] => .error .truncated
  | b0 :: bs =>
    match sizeClassOf b0 with
    | none => .error .sizeClassZero
    | some sc =>
      match takeFragments (sc.controlBytes - 1) bs with
      | none => .error .truncated
      | some (frags, bs') =>
        match takeOperand (addressModeOf b0) bs' with
        | none => .error .truncated
        | some (o, rest) =>
          match resolve t sc (frag0Of b0 :: frags) (flagOf b0) o with
          | .error r => .error r
          | .ok i => .ok (i, rest)

/-- Decodes at most `n` instructions, one after another, until the bytes run out (30_encoding.md R104). -/
def decodeAll (t : IsaTable) : Nat → List Byte → Except Reject (List Instr)
  | _, [] => .ok []
  | 0, _ :: _ => .error .truncated
  | n + 1, bs =>
    match decode t bs with
    | .error r => .error r
    | .ok (i, rest) =>
      match decodeAll t n rest with
      | .error r => .error r
      | .ok is => .ok (i :: is)

/-! ### The encoder -/

/-- The bytes of an instruction under one table entry: control byte 0, the further fragments, the operand
bytes (30_encoding.md R80, R81, R84, R114). -/
def IsaEntry.encode (e : IsaEntry) (i : Instr) : List Byte :=
  controlByte e.sizeClass i.flag i.operand.mode (e.frags.headD 0) :: (e.frags.tail ++ i.operand.bytes)

/-- The bytes of an instruction under an ISA table; nothing for an instruction that is not well formed
under it (30_encoding.md R80, R91, R114). -/
def encode (t : IsaTable) (i : Instr) : List Byte :=
  match t.entryOf i.opcode with
  | some e => e.encode i
  | none => []

/-- The bytes of a sequence of instructions (30_encoding.md R114). -/
def encodeAll (t : IsaTable) (is : List Instr) : List Byte := is.flatMap (encode t)

/-! ### The default ISA table -/

/-- A Short row: `frag0` only (30_encoding.md R95). -/
def shortRow (op : Opcode) (frag0 : Byte) : IsaEntry := ⟨op, .short, [frag0]⟩

/-- A Long row: `frag0 = 0` and `frag1` (30_encoding.md R95). -/
def longRow (op : Opcode) (frag1 : Byte) : IsaEntry := ⟨op, .long, [0x00#8, frag1]⟩

/-- The default `ISA_TABLE` (30_encoding.md R95; 92_eei_decisions.md D1, D2). -/
def defaultIsaTable : IsaTable :=
  [shortRow .nop 0, shortRow .lda 1, shortRow .ldb 2, shortRow .sta 3, shortRow .stb 4,
   shortRow .stc 5, shortRow .syscall 6, shortRow .abc 7] ++
  [longRow .mul 0x00, longRow .jmp 0x01, longRow .jz 0x02, longRow .jnz 0x03, longRow .cmp 0x04,
   longRow .cpl 0x05, longRow .land 0x06, longRow .lxor 0x07, longRow .lor 0x08, longRow .hlt 0x09,
   longRow .panic 0x0A, longRow .mbnkrom 0x0B, longRow .mbnkram 0x0C, longRow .zero 0x0D,
   longRow .ldl 0x0E, longRow .ldh 0x0F, longRow .cld 0x10]

/-! ### The opcode table's words -/

/-- The low `n` bytes of a number, the most significant first. -/
def bigEndianBytes : Nat → Nat → List Byte
  | 0, _ => []
  | n + 1, w => bigEndianBytes n (w / 256) ++ [BitVec.ofNat 8 w]

/-- The longest instruction has 5 bytes (30_encoding.md R85). -/
def maxInstrBytes : Nat := 5

/-- The bytes, as they lie in memory, of an instruction whose opcode-table bits are `w`: the table numbers a
two-byte row as one number whose high byte is control byte 0 (its match of MUL is 0x8000), and every byte
after the table's bits is 0. DESIGN CHOICE, log entry 8. -/
def tableWordBytes (nbits w : Nat) : List Byte :=
  bigEndianBytes (nbits / 8) w ++ List.replicate (maxInstrBytes - nbits / 8) 0x00#8

/-- The instruction the decoder reads, under the default table, from a word of the opcode table. -/
def decodeTableWord (nbits w : Nat) : Option Instr :=
  match decode defaultIsaTable (tableWordBytes nbits w) with
  | .ok (i, _) => some i
  | .error _ => none

end Sys2Proof
end

