-- ==== Sys2Proof/Machine/Defaults.lean ====
section
/-! DEFINITION. The default values of the parameters (00_scope.md R8). -/

namespace Sys2Proof

/-- A cell that is readable and writable: the default capability (10_state.md R26). -/
def RegCap.full : RegCap := ⟨true, true⟩

/-- Every register readable and writable: the default `REG_CAPS` (10_state.md R26). -/
def RegCaps.full : RegCaps := ⟨.full, .full, .full, .full, .full, .full, .full, .full⟩

/-- The default parameters (00_scope.md R8). The three boot addresses come from a ROM header; before any ROM
is read they are 0x0000, and the throttle is 0. DESIGN CHOICE, log entries 3 and 4. -/
def Config.default : Config where
  isaTable := defaultIsaTable
  regions := []
  policy := .trap
  storeByName := false
  regCaps := .full
  initAddr := 0x0000#16
  panicAddr := 0x0000#16
  endAddr := 0x0000#16
  throttle := 0
  maxRomSize := 0xFFFF#16
  verifyHash := true

end Sys2Proof
end

