-- ==== Sys2Proof/Machine/State.lean ====
section
/-! DEFINITION. The state of the machine as plain data (10_state.md R20 to R36), the causes and events of
60_exceptions.md R200 and R203, the outcomes of a step that is no step, and the state after reset. -/

namespace Sys2Proof.Machine

/-- The 8-bit registers of the notation `x[r]` (00_scope.md R12). -/
inductive Reg8 where
  | a | b | c | l | h
  deriving DecidableEq, Repr

/-- The registers an instruction reads or writes under a capability check: the 8-bit ones and M
(10_state.md R26, R27; 43_system.md R192). -/
inductive CapReg where
  | reg8 (r : Reg8)
  | m
  deriving DecidableEq, Repr

/-- Access modes of memory (00_scope.md R13). -/
inductive AccessMode where
  | read | write | exec
  deriving DecidableEq, Repr

/-- Run status (10_state.md R34). -/
inductive RunStatus where
  | running | halted | fatal
  deriving DecidableEq, Repr

/-- The trappable causes, codes 1 to 5 (60_exceptions.md R200, R201). -/
inductive TrapCause where
  | fetchViolation | readViolation | writeViolation | capabilityViolation | divideByZero
  deriving DecidableEq, Repr

/-- The fatal causes, codes 16 to 18 (60_exceptions.md R200, R202). -/
inductive FatalCause where
  | invalidOpcode | illegalAddressMode | doubleFault
  deriving DecidableEq, Repr

/-- The stop causes: NONE, a trappable or a fatal cause, HALT (60_exceptions.md R200). -/
inductive StopCause where
  | none
  | trap (c : TrapCause)
  | fatal (c : FatalCause)
  | halt
  deriving DecidableEq, Repr

/-- What a fault records beside its cause (60_exceptions.md R200, "Info recorded"). -/
inductive Info where
  | none
  | address (addr : Addr)
  | register (r : CapReg)
  | inner (c : TrapCause)
  deriving DecidableEq, Repr

/-- One record of the event output: the cause, its info, the start of the instruction
(60_exceptions.md R203, R205, R209). -/
structure Event where
  cause : StopCause
  info : Info
  start : Addr
  deriving DecidableEq, Repr

/-- The state (10_state.md R36), the event output the host reads (70_reset_and_hazards.md R255) and the
parameters, which no step changes (10_state.md R31). -/
structure State where
  /-- General-purpose register A (10_state.md R21). -/
  a : Byte
  /-- General-purpose register B (10_state.md R21). -/
  b : Byte
  /-- General-purpose register C, where every ALU result lands (41_arith_logic.md R148). -/
  c : Byte
  /-- Bank/latch register L (10_state.md R23). -/
  l : Byte
  /-- Bank/latch register H (10_state.md R23). -/
  h : Byte
  /-- The memory-bank-select flag (10_state.md R24). -/
  m : Bit
  /-- The link/return pointer, a Double Register (10_state.md R25). -/
  lrap : Addr
  /-- The program counter (10_state.md R28). -/
  pc : Addr
  /-- The 65536 bytes, listed by address; an unlisted byte is 0x00 (20_memory.md R50, 10_state.md R35). -/
  mem : List Host.Cell
  /-- Run status (10_state.md R34). -/
  status : RunStatus
  /-- Stop cause, NONE while RUNNING (10_state.md R34, R36). -/
  cause : StopCause
  /-- The event output, oldest record first (60_exceptions.md R203). -/
  events : List Event
  /-- The MODEL's field for the step's `start` (30_encoding.md R97): the address of control byte 0 of the
  instruction in progress. Every step sets it first; no step reads the value it finds (log entry 2). -/
  start : Addr
  /-- The parameters (00_scope.md R8), fixed for a run (log entry 1). -/
  cfg : Config
  deriving DecidableEq, Repr

/-- Why there is no next state. -/
inductive Fault where
  /-- Raised by `step` alone, when the run status is not RUNNING: "The CPU steps only while the status is
  RUNNING" (10_state.md R34). No instruction raises it. Safe: the model stops where the CPU has stopped
  (log entry 6). -/
  | cpuStopped
  deriving DecidableEq, Repr

/-- Why an instruction has no meaning. -/
inductive Refusal where
  /-- Raised by an arm of `exec` for an instruction that has no meaning yet, with its mnemonic. Safe. No arm
  raises it: every instruction is modelled. -/
  | notModelled (mnemonic : String)
  deriving DecidableEq, Repr

/-- The outcome of a step or of an instruction. -/
abbrev Result := Host.Outcome State Fault Refusal

/-- The reset state under given parameters, with a given memory (10_state.md R35,
70_reset_and_hazards.md R246), the event output empty (log entry 20). -/
def State.resetWith (cfg : Config) (mem : List Host.Cell) : State where
  a := 0x00#8
  b := 0x00#8
  c := 0x00#8
  l := 0x00#8
  h := 0x00#8
  m := 0#1
  lrap := 0x0000#16
  pc := cfg.initAddr
  mem := mem
  status := .running
  cause := .none
  events := []
  start := 0x0000#16
  cfg := cfg

/-- The machine right after reset under the default parameters, with no image loaded: every memory byte
reads 0x00 (10_state.md R35). A program is loaded from outside by `boot` (log entry 9). -/
def State.reset : State := State.resetWith Config.default []

end Sys2Proof.Machine
end

