-- ==== Sys2Proof/Machine/Ops.lean ====
section
/-! DEFINITION. The named operations over registers, memory and control: register access (00_scope.md R12),
the permission checker and the checked accesses (20_memory.md R52 to R58), trap entry and stops
(60_exceptions.md R205 to R209; 42_control.md R176), the capability check (10_state.md R27). -/

namespace Sys2Proof.Machine

/-! ### Updates of one field -/

/-- `x[r]` read (00_scope.md R12). -/
def State.reg (s : State) : Reg8 → Byte
  | .a => s.a
  | .b => s.b
  | .c => s.c
  | .l => s.l
  | .h => s.h

/-- `x[r] <- v` (00_scope.md R12). -/
def State.setReg (s : State) (r : Reg8) (v : Byte) : State :=
  match r with
  | .a => { s with a := v }
  | .b => { s with b := v }
  | .c => { s with c := v }
  | .l => { s with l := v }
  | .h => { s with h := v }

/-- `M <- v` (00_scope.md R12). -/
def State.setM (s : State) (v : Bit) : State := { s with m := v }

/-- `LRAP <- v`: the CPU loop's own write, which no capability check guards (10_state.md R27). -/
def State.setLrap (s : State) (v : Addr) : State := { s with lrap := v }

/-- LRAP_H, bits 15:8 of the Double Register (10_state.md R25). -/
def State.lrapH (s : State) : Byte := highByte s.lrap

/-- LRAP_L, bits 7:0 of the Double Register (10_state.md R25). -/
def State.lrapL (s : State) : Byte := lowByte s.lrap

/-- `pc <- v` (00_scope.md R14). -/
def State.setPc (s : State) (v : Addr) : State := { s with pc := v }

/-- `start <- v` (30_encoding.md R97). -/
def State.setStart (s : State) (v : Addr) : State := { s with start := v }

/-- Replaces the memory contents. -/
def State.setMem (s : State) (mem : List Host.Cell) : State := { s with mem := mem }

/-- Sets the run status and its cause (10_state.md R34). -/
def State.stop (s : State) (status : RunStatus) (cause : StopCause) : State :=
  { s with status := status, cause := cause }

/-- Emits one record on the event output (60_exceptions.md R203). -/
def State.emit (s : State) (cause : StopCause) (info : Info) : State :=
  { s with events := s.events ++ [⟨cause, info, s.start⟩] }

/-! ### Memory contents -/

/-- What a byte that is not listed reads as (10_state.md R35; 92_eei_decisions.md D9). -/
def unlistedByte : Byte := 0x00#8

/-- The byte at an address of a listing. -/
def memGet : List Host.Cell → Nat → Byte
  | [], _ => unlistedByte
  | (k, v) :: cells, addr => if k = addr then v else memGet cells addr

/-- The listing with an address's byte replaced, in canonical form if the listing was. -/
def memSet : List Host.Cell → Nat → Byte → List Host.Cell
  | [], addr, v => if v = unlistedByte then [] else [(addr, v)]
  | (k, w) :: cells, addr, v =>
    if k < addr then (k, w) :: memSet cells addr v
    else
      let others := ((k, w) :: cells).filter (fun cell => cell.1 != addr)
      if v = unlistedByte then others else (addr, v) :: others

/-- Addresses strictly rise from `low` on and stay below 65536, and no listed byte is the unlisted one. -/
def memWfFrom : Nat → List Host.Cell → Bool
  | _, [] => true
  | low, (k, v) :: cells =>
    decide (low ≤ k) && decide (k < 65536) && decide (v ≠ unlistedByte) && memWfFrom (k + 1) cells

/-- The canonical form of memory (20_memory.md R50, R73). -/
def Memory.wf (mem : List Host.Cell) : Bool := memWfFrom 0 mem

/-- The byte of the state's memory at an address: `mem[addr]` (20_memory.md R57). -/
def State.byteAt (s : State) (addr : Addr) : Byte := memGet s.mem addr.toNat

/-- The state with one byte stored: `mem[addr] <- v` (20_memory.md R58). -/
def State.setByte (s : State) (addr : Addr) (v : Byte) : State :=
  s.setMem (memSet s.mem addr.toNat v)

/-! ### The region-permission checker -/

/-- A rule covers an address within its bounds, both inclusive (20_memory.md R53). -/
def covers (rule : RegionRule) (addr : Addr) : Bool :=
  decide (rule.lowBound.toNat ≤ addr.toNat) && decide (addr.toNat ≤ rule.highBound.toNat)

/-- A rule forbids a mode when its flag for that mode is true (20_memory.md R54). -/
def forbids (rule : RegionRule) : AccessMode → Bool
  | .read => rule.disallowRead
  | .write => rule.disallowWrite
  | .exec => rule.disallowExecute

/-- `Permitted(addr, mode)`: no rule covers the address and forbids the mode (20_memory.md R54). -/
def permitted (regions : List RegionRule) (addr : Addr) (mode : AccessMode) : Bool :=
  !(regions.any (fun rule => covers rule addr && forbids rule mode))

/-- `MemRead(addr, 1, mode)`; `none` is Denied (20_memory.md R57). -/
def memRead (s : State) (addr : Addr) (mode : AccessMode) : Option Byte :=
  if permitted s.cfg.regions addr mode then some (s.byteAt addr) else none

/-- `MemWrite(addr, 1, v, mode)`; `none` is Denied, and then nothing is stored (20_memory.md R58). -/
def memWrite (s : State) (addr : Addr) (v : Byte) (mode : AccessMode) : Option State :=
  if permitted s.cfg.regions addr mode then some (s.setByte addr v) else none

/-! ### Stops and trap entry -/

/-- The code of a cause (60_exceptions.md R200). -/
def StopCause.code : StopCause → Nat
  | .none => 0
  | .trap .fetchViolation => 1
  | .trap .readViolation => 2
  | .trap .writeViolation => 3
  | .trap .capabilityViolation => 4
  | .trap .divideByZero => 5
  | .fatal .invalidOpcode => 16
  | .fatal .illegalAddressMode => 17
  | .fatal .doubleFault => 18
  | .halt => 32

/-- `raise Fatal(c)`: the status is FATAL, the event carries `info`, the PC stays (60_exceptions.md R209). -/
def raiseFatal (c : FatalCause) (info : Info) (s : State) : State :=
  (s.stop .fatal (.fatal c)).emit (.fatal c) info

/-- `raise Trap(c, info)`, TAKING AN EXCEPTION: trap entry under the policy, with the double fault of the
instruction at the panic address (60_exceptions.md R205, R207, R208). Nothing returns from a trap: the block
has no such instruction (60_exceptions.md R213). -/
def raiseTrap (c : TrapCause) (info : Info) (s : State) : State :=
  match s.cfg.policy with
  | .halt => (s.stop .fatal (.trap c)).emit (.trap c) info
  | .trap =>
    if s.start = s.cfg.panicAddr then raiseFatal .doubleFault (.inner c) s
    else ((s.setLrap s.start).setPc s.cfg.panicAddr).emit (.trap c) info

/-- `stop Halted` (42_control.md R176, 00_scope.md R14), with the event record of a stop, whose cause is HALT and
whose info is none (60_exceptions.md R200, R203; log entry 5). -/
def stopHalted (s : State) : State := (s.stop .halted .halt).emit .halt .none

/-! ### Register capabilities -/

/-- The capability flags of a register (10_state.md R26). -/
def capOf (caps : RegCaps) : CapReg → RegCap
  | .reg8 .a => caps.a
  | .reg8 .b => caps.b
  | .reg8 .c => caps.c
  | .reg8 .l => caps.l
  | .reg8 .h => caps.h
  | .m => caps.m

/-- The flags LRAP inherits from its halves, which nothing checks (10_state.md R26, R27; log entry 13). -/
def lrapCap (caps : RegCaps) : RegCap :=
  ⟨caps.lrapH.readable && caps.lrapL.readable, caps.lrapH.writable && caps.lrapL.writable⟩

/-- The first register that fails the check: the reads in order, then the writes in order
(10_state.md R27). -/
def firstViolation (caps : RegCaps) (reads writes : List CapReg) : Option CapReg :=
  match reads.find? (fun r => !(capOf caps r).readable) with
  | some r => some r
  | none => writes.find? (fun r => !(capOf caps r).writable)

/-- Runs an instruction's effect after its capability check: a failed check traps with the register
(10_state.md R27, 60_exceptions.md R200). -/
def withCaps (reads writes : List CapReg) (s : State) (effect : State → Result) : Result :=
  match firstViolation s.cfg.regCaps reads writes with
  | some r => .next (raiseTrap .capabilityViolation (.register r) s)
  | none => effect s

end Sys2Proof.Machine
end

