-- ==== Sys2Proof/Machine/Flags.lean ====
section
/-! DEFINITION. The block has no condition flags (10_state.md R30): a comparison leaves its result in C, and
the conditional jumps test C. Here are the values compared instructions write and the condition jumps test. -/

namespace Sys2Proof.Machine

/-- A truth value as the byte a comparison writes (41_arith_logic.md R142). -/
def truthByte (p : Bool) : Byte := if p then 0x01#8 else 0x00#8

/-- CMP with flag 0 (41_arith_logic.md R142). -/
def equalByte (x y : Byte) : Byte := truthByte (x == y)

/-- CMP with flag 1, unsigned (41_arith_logic.md R142). -/
def lessByte (x y : Byte) : Byte := truthByte (decide (x.toNat < y.toNat))

/-- The condition of JZ, and its negation that of JNZ (42_control.md R171, R172). -/
def isZero (v : Byte) : Bool := v == 0x00#8

end Sys2Proof.Machine
end

