-- ==== Sys2Proof/Machine/Operands.lean ====
section
/-! DEFINITION. The operand forms: immediate and absolute loads, absolute stores (40_load_store.md R126),
the fixed A and B to C form of the ALU (41_arith_logic.md R148), the absolute jump (42_control.md R173). -/

namespace Sys2Proof.Machine

/-- The CONSTANT form of a load into `r` (40_load_store.md R120). -/
def loadConst (r : Reg8) (imm : Byte) (s : State) : Result :=
  withCaps [] [.reg8 r] s (fun s => .next (s.setReg r imm))

/-- The MEMORY form of a load into `r` (40_load_store.md R120, R129). -/
def loadMem (r : Reg8) (addr : Addr) (s : State) : Result :=
  withCaps [] [.reg8 r] s (fun s =>
    match memRead s addr .read with
    | none => .next (raiseTrap .readViolation (.address addr) s)
    | some v => .next (s.setReg r v))

/-- The MEMORY form of a store from `r` (40_load_store.md R122, R129). -/
def storeMem (r : Reg8) (addr : Addr) (s : State) : Result :=
  withCaps [.reg8 r] [] s (fun s =>
    match memWrite s addr (s.reg r) .write with
    | none => .next (raiseTrap .writeViolation (.address addr) s)
    | some s' => .next s')

/-- The register STB or STC stores: the one its name says when `STORE_BY_NAME`, else A
(40_load_store.md R125). -/
def storeSource (s : State) (byName : Reg8) : Reg8 := if s.cfg.storeByName then byName else .a

/-- The ALU form: C gets a function of A and B (41_arith_logic.md R148). -/
def aluOp (f : Byte → Byte → Byte) (s : State) : Result :=
  withCaps [.reg8 .a, .reg8 .b] [.reg8 .c] s (fun s => .next (s.setReg .c (f s.a s.b)))

/-- The form of CPL: C gets a function of one register (41_arith_logic.md R143). -/
def aluOp1 (r : Reg8) (f : Byte → Byte) (s : State) : Result :=
  withCaps [.reg8 r] [.reg8 .c] s (fun s => .next (s.setReg .c (f (s.reg r))))

/-- `trunc8(x)` of a number (00_scope.md R11). -/
def trunc8 (x : Nat) : Byte := BitVec.ofNat 8 x

/-- ABC: the sum modulo 256 (41_arith_logic.md R140). -/
def addBytes (x y : Byte) : Byte := trunc8 (x.toNat + y.toNat)

/-- SUB: the difference modulo 256 (41_arith_logic.md R140). -/
def subBytes (x y : Byte) : Byte := trunc8 (x.toNat + 256 - y.toNat)

/-- MUL: the product modulo 256 (41_arith_logic.md R141). -/
def mulBytes (x y : Byte) : Byte := trunc8 (x.toNat * y.toNat)

/-- DIV by a byte that is not 0: the quotient rounded down (41_arith_logic.md R141). -/
def divBytes (x y : Byte) : Byte := trunc8 (x.toNat / y.toNat)

/-- CPL: every bit inverted (41_arith_logic.md R143). -/
def notByte (x : Byte) : Byte := ~~~x

/-- AND (41_arith_logic.md R144). -/
def andBytes (x y : Byte) : Byte := x &&& y

/-- XOR (41_arith_logic.md R145). -/
def xorBytes (x y : Byte) : Byte := x ^^^ y

/-- OR (41_arith_logic.md R146). -/
def orBytes (x y : Byte) : Byte := x ||| y

/-- A jump, when its condition holds; otherwise the PC stays at the next instruction
(42_control.md R170 to R173). -/
def jumpIf (taken : Bool) (target : Addr) (s : State) : State := if taken then s.setPc target else s

end Sys2Proof.Machine
end

