-- ==== Sys2Proof/Machine/ArithLogic.lean ====
section
/-! DEFINITION. Arithmetic, logic and register clearing (41_arith_logic.md R140 to R150). -/

namespace Sys2Proof.Machine

/-- ABC (41_arith_logic.md R140). -/
def execAbc (_m : ImplicitMode) (s : State) : Result := aluOp addBytes s

/-- SUB (41_arith_logic.md R140). -/
def execSub (_m : ImplicitMode) (s : State) : Result := aluOp subBytes s

/-- MUL (41_arith_logic.md R141). -/
def execMul (_m : ImplicitMode) (s : State) : Result := aluOp mulBytes s

/-- DIV: after the capability check, B = 0 traps and no register is written (41_arith_logic.md R141,
60_exceptions.md R210). -/
def execDiv (_m : ImplicitMode) (s : State) : Result :=
  withCaps [.reg8 .a, .reg8 .b] [.reg8 .c] s (fun s =>
    if isZero s.b then .next (raiseTrap .divideByZero .none s)
    else .next (s.setReg .c (divBytes s.a s.b)))

/-- CMP with flag 0 (41_arith_logic.md R142). -/
def execCmpEq (_m : ImplicitMode) (s : State) : Result := aluOp equalByte s

/-- CMP with flag 1 (41_arith_logic.md R142). -/
def execCmpLt (_m : ImplicitMode) (s : State) : Result := aluOp lessByte s

/-- CPL with flag 0 (41_arith_logic.md R143). -/
def execCplA (_m : ImplicitMode) (s : State) : Result := aluOp1 .a notByte s

/-- CPL with flag 1 (41_arith_logic.md R143). -/
def execCplB (_m : ImplicitMode) (s : State) : Result := aluOp1 .b notByte s

/-- AND (41_arith_logic.md R144). -/
def execAnd (_f : Bool) (_m : ImplicitMode) (s : State) : Result := aluOp andBytes s

/-- XOR (41_arith_logic.md R145). -/
def execXor (_f : Bool) (_m : ImplicitMode) (s : State) : Result := aluOp xorBytes s

/-- OR (41_arith_logic.md R146). -/
def execOr (_f : Bool) (_m : ImplicitMode) (s : State) : Result := aluOp orBytes s

/-- ZERO (41_arith_logic.md R149). -/
def execZero (_f : Bool) (_m : ImplicitMode) (s : State) : Result :=
  withCaps [] [.reg8 .a, .reg8 .b, .reg8 .c] s (fun s =>
    .next (((s.setReg .a 0x00#8).setReg .b 0x00#8).setReg .c 0x00#8))

/-- CLD (41_arith_logic.md R150). -/
def execCld (_f : Bool) (_m : ImplicitMode) (s : State) : Result :=
  withCaps [] [.reg8 .l, .reg8 .h] s (fun s => .next ((s.setReg .l 0x00#8).setReg .h 0x00#8))

end Sys2Proof.Machine
end

