-- ==== Sys2Proof/Machine/Control.lean ====
section
/-! DEFINITION. Control transfer, halt and panic (42_control.md R170 to R178). An instruction begins with the
PC at `next`, the address just past it (30_encoding.md R98). -/

namespace Sys2Proof.Machine

/-- JMP (42_control.md R170). -/
def execJmp (_f : Bool) (addr : Addr) (s : State) : Result := .next (jumpIf true addr s)

/-- JZ (42_control.md R171). -/
def execJz (_f : Bool) (addr : Addr) (s : State) : Result :=
  withCaps [.reg8 .c] [] s (fun s => .next (jumpIf (isZero s.c) addr s))

/-- JNZ (42_control.md R172). -/
def execJnz (_f : Bool) (addr : Addr) (s : State) : Result :=
  withCaps [.reg8 .c] [] s (fun s => .next (jumpIf (!isZero s.c) addr s))

/-- HLT (42_control.md R176). -/
def execHlt (_f : Bool) (_m : ImplicitMode) (s : State) : Result := .next (stopHalted s)

/-- PANIC: a control transfer and no fault; it writes LRAP with `next` (42_control.md R177,
60_exceptions.md R222). -/
def execPanic (_f : Bool) (_m : ImplicitMode) (s : State) : Result :=
  .next ((s.setLrap s.pc).setPc s.cfg.panicAddr)

end Sys2Proof.Machine
end

