-- ==== Sys2Proof/Machine/LoadStore.lean ====
section
/-! DEFINITION. Loads and stores (40_load_store.md R120 to R129). The flag bit `f` is ignored
(30_encoding.md R82). -/

namespace Sys2Proof.Machine

/-- LDA, CONSTANT (40_load_store.md R120). -/
def execLdaConst (_f : Bool) (imm : Byte) (s : State) : Result := loadConst .a imm s

/-- LDA, MEMORY (40_load_store.md R120). -/
def execLdaMem (_f : Bool) (addr : Addr) (s : State) : Result := loadMem .a addr s

/-- LDB, CONSTANT (40_load_store.md R121). -/
def execLdbConst (_f : Bool) (imm : Byte) (s : State) : Result := loadConst .b imm s

/-- LDB, MEMORY (40_load_store.md R121). -/
def execLdbMem (_f : Bool) (addr : Addr) (s : State) : Result := loadMem .b addr s

/-- STA (40_load_store.md R122). -/
def execSta (_f : Bool) (addr : Addr) (s : State) : Result := storeMem .a addr s

/-- STB, which stores A unless `STORE_BY_NAME` (40_load_store.md R123, R125). -/
def execStb (_f : Bool) (addr : Addr) (s : State) : Result := storeMem (storeSource s .b) addr s

/-- STC, which stores A unless `STORE_BY_NAME` (40_load_store.md R124, R125). -/
def execStc (_f : Bool) (addr : Addr) (s : State) : Result := storeMem (storeSource s .c) addr s

/-- LDL, CONSTANT (40_load_store.md R127). -/
def execLdlConst (_f : Bool) (imm : Byte) (s : State) : Result := loadConst .l imm s

/-- LDL, MEMORY (40_load_store.md R127). -/
def execLdlMem (_f : Bool) (addr : Addr) (s : State) : Result := loadMem .l addr s

/-- LDH, CONSTANT (40_load_store.md R128). -/
def execLdhConst (_f : Bool) (imm : Byte) (s : State) : Result := loadConst .h imm s

/-- LDH, MEMORY (40_load_store.md R128). -/
def execLdhMem (_f : Bool) (addr : Addr) (s : State) : Result := loadMem .h addr s

end Sys2Proof.Machine
end

