-- ==== Sys2Proof/Machine/System.lean ====
section
/-! DEFINITION. No-op, system call and bank select (43_system.md R190 to R193). -/

namespace Sys2Proof.Machine

/-- NOP (43_system.md R190). -/
def execNop (_f : Bool) (_m : ImplicitMode) (s : State) : Result := .next s

/-- SYSCALL, reserved: a no-op in this version, and it does not trap (43_system.md R191). -/
def execSyscall (_f : Bool) (_m : ImplicitMode) (s : State) : Result := .next s

/-- MBNKROM (43_system.md R192). -/
def execMbnkrom (_f : Bool) (_m : ImplicitMode) (s : State) : Result :=
  withCaps [] [.m] s (fun s => .next (s.setM 0#1))

/-- MBNKRAM (43_system.md R193). -/
def execMbnkram (_f : Bool) (_m : ImplicitMode) (s : State) : Result :=
  withCaps [] [.m] s (fun s => .next (s.setM 1#1))

end Sys2Proof.Machine
end

