-- ==== Sys2Proof/Machine/Dispatch.lean ====
section
/-! DEFINITION. `Execute`: one arm per constructor of `Instr` (30_encoding.md R98). -/

namespace Sys2Proof.Machine

def exec (i : Instr) (s : State) : Host.Outcome State Fault Refusal :=
  match i with
  | .nop f m => Sys2Proof.Machine.execNop f m s
  | .ldaConst f imm => Sys2Proof.Machine.execLdaConst f imm s
  | .ldaMem f addr => Sys2Proof.Machine.execLdaMem f addr s
  | .ldbConst f imm => Sys2Proof.Machine.execLdbConst f imm s
  | .ldbMem f addr => Sys2Proof.Machine.execLdbMem f addr s
  | .sta f addr => Sys2Proof.Machine.execSta f addr s
  | .stb f addr => Sys2Proof.Machine.execStb f addr s
  | .stc f addr => Sys2Proof.Machine.execStc f addr s
  | .syscall f m => Sys2Proof.Machine.execSyscall f m s
  | .abc m => Sys2Proof.Machine.execAbc m s
  | .sub m => Sys2Proof.Machine.execSub m s
  | .mul m => Sys2Proof.Machine.execMul m s
  | .div m => Sys2Proof.Machine.execDiv m s
  | .jmp f addr => Sys2Proof.Machine.execJmp f addr s
  | .jz f addr => Sys2Proof.Machine.execJz f addr s
  | .jnz f addr => Sys2Proof.Machine.execJnz f addr s
  | .cmpEq m => Sys2Proof.Machine.execCmpEq m s
  | .cmpLt m => Sys2Proof.Machine.execCmpLt m s
  | .cplA m => Sys2Proof.Machine.execCplA m s
  | .cplB m => Sys2Proof.Machine.execCplB m s
  | .andAB f m => Sys2Proof.Machine.execAnd f m s
  | .xorAB f m => Sys2Proof.Machine.execXor f m s
  | .orAB f m => Sys2Proof.Machine.execOr f m s
  | .hlt f m => Sys2Proof.Machine.execHlt f m s
  | .panic f m => Sys2Proof.Machine.execPanic f m s
  | .mbnkrom f m => Sys2Proof.Machine.execMbnkrom f m s
  | .mbnkram f m => Sys2Proof.Machine.execMbnkram f m s
  | .zero f m => Sys2Proof.Machine.execZero f m s
  | .ldlConst f imm => Sys2Proof.Machine.execLdlConst f imm s
  | .ldlMem f addr => Sys2Proof.Machine.execLdlMem f addr s
  | .ldhConst f imm => Sys2Proof.Machine.execLdhConst f imm s
  | .ldhMem f addr => Sys2Proof.Machine.execLdhMem f addr s
  | .cld f m => Sys2Proof.Machine.execCld f m s

end Sys2Proof.Machine
end

