-- ==== Sys2Proof/Machine/Fetch.lean ====
section
/-! DEFINITION. The fetch, decode and operand-fetch stages of a step (30_encoding.md R86, R90, R97). An
`error` holds the state in which the step ends: a trap was entered or the CPU stopped. -/

namespace Sys2Proof.Machine

/-- `FetchByte()`: one instruction byte in EXEC mode, the PC advanced modulo 65536; a denied fetch traps with
the PC's address (30_encoding.md R86). -/
def fetchByte (s : State) : Except State (Byte × State) :=
  match memRead s s.pc .exec with
  | none => .error (raiseTrap .fetchViolation (.address s.pc) s)
  | some b => .ok (b, s.setPc (s.pc + 1#16))

/-- `n` instruction bytes, one after another (30_encoding.md R97). -/
def fetchBytes : Nat → State → Except State (List Byte × State)
  | 0, s => .ok ([], s)
  | n + 1, s =>
    match fetchByte s with
    | .error t => .error t
    | .ok (b, s') =>
      match fetchBytes n s' with
      | .error t => .error t
      | .ok (bs, s'') => .ok (b :: bs, s'')

/-- All the bytes of one instruction: control byte 0 and, unless it has `sc = 0`, the rest of the length it
gives. `sc = 0` stops the CPU at once, with no further fetch (30_encoding.md R85, R93, R97). -/
def fetchInstr (s : State) : Except State (List Byte × State) :=
  match fetchByte s with
  | .error t => .error t
  | .ok (b0, s') =>
    match lengthOf b0 with
    | none => .error (raiseFatal .invalidOpcode .none s')
    | some len =>
      match fetchBytes (len - 1) s' with
      | .error t => .error t
      | .ok (bs, s'') => .ok (b0 :: bs, s'')

/-- The fatal cause of a rejected encoding (30_encoding.md R91, R93, R94). -/
def rejectCause : Reject → FatalCause
  | .truncated => .invalidOpcode
  | .sizeClassZero => .invalidOpcode
  | .notFound => .invalidOpcode
  | .illegalAddressMode => .illegalAddressMode

/-- The stages before execution: `start` is set, the bytes are fetched and decoded under the state's ISA
table; a rejected encoding stops the CPU (30_encoding.md R97). -/
def fetchDecode (s : State) : Except State (Instr × State) :=
  match fetchInstr (s.setStart s.pc) with
  | .error t => .error t
  | .ok (bs, s') =>
    match decode s'.cfg.isaTable bs with
    | .error r => .error (raiseFatal (rejectCause r) .none s')
    | .ok (i, _) => .ok (i, s')

/-- Stores bytes at rising addresses from `addr` on, modulo 65536, past every check: the host's own placing of
an image, not an access of the CPU. -/
def placeBytes : List Byte → Addr → State → State
  | [], _, s => s
  | b :: bs, addr, s => placeBytes bs (addr + 1#16) (s.setByte addr b)

end Sys2Proof.Machine
end

