-- ==== Sys2Proof/Machine/Step.lean ====
section
/-! DEFINITION. One step of the CPU (30_encoding.md R97), and the placing of one instruction where the next step
fetches. -/

namespace Sys2Proof.Machine

/-- One step, taken only while the status is RUNNING (10_state.md R34, 30_encoding.md R97). The throttle that
ends it touches no state (30_encoding.md R99). -/
def step (s : State) : Host.Outcome State Fault Refusal :=
  match s.status with
  | .running =>
    match fetchDecode s with
    | .error t => .next t
    | .ok (i, s') => exec i s'
  | .halted => .fault .cpuStopped
  | .fatal => .fault .cpuStopped

/-- The state with the instruction of an opcode-table word placed at the PC, every byte past the word up to
the longest instruction 0 (log entries 8 and 9). -/
def State.withFetchWord (s : State) (nbits w : Nat) : State :=
  placeBytes (tableWordBytes nbits w) s.pc s

end Sys2Proof.Machine
end

