-- ==== Sys2Proof/Machine/Sha256.lean ====
section
/-! DEFINITION. SHA-256, the hash of a ROM's addresses and stream (70_reset_and_hazards.md R244). The spec names
the function of FIPS 180-4 and gives no text of it: PRESUMED, from general knowledge (93 G2; log entry 10). -/

namespace Sys2Proof.Machine

/-- A 32-bit word of SHA-256. -/
abbrev Word32 := BitVec 32

/-- The function `Ch`. -/
def shaCh (x y z : Word32) : Word32 := (x &&& y) ^^^ (~~~x &&& z)

/-- The function `Maj`. -/
def shaMaj (x y z : Word32) : Word32 := (x &&& y) ^^^ (x &&& z) ^^^ (y &&& z)

/-- The function `Σ0`. -/
def shaBigSigma0 (x : Word32) : Word32 := x.rotateRight 2 ^^^ x.rotateRight 13 ^^^ x.rotateRight 22

/-- The function `Σ1`. -/
def shaBigSigma1 (x : Word32) : Word32 := x.rotateRight 6 ^^^ x.rotateRight 11 ^^^ x.rotateRight 25

/-- The function `σ0`. -/
def shaSmallSigma0 (x : Word32) : Word32 := x.rotateRight 7 ^^^ x.rotateRight 18 ^^^ x >>> 3

/-- The function `σ1`. -/
def shaSmallSigma1 (x : Word32) : Word32 := x.rotateRight 17 ^^^ x.rotateRight 19 ^^^ x >>> 10

/-- The 64 round constants: the fractional parts of the cube roots of the first 64 primes. -/
def shaK : List Word32 :=
  [0x428a2f98#32, 0x71374491#32, 0xb5c0fbcf#32, 0xe9b5dba5#32, 0x3956c25b#32, 0x59f111f1#32,
   0x923f82a4#32, 0xab1c5ed5#32, 0xd807aa98#32, 0x12835b01#32, 0x243185be#32, 0x550c7dc3#32,
   0x72be5d74#32, 0x80deb1fe#32, 0x9bdc06a7#32, 0xc19bf174#32] ++
  [0xe49b69c1#32, 0xefbe4786#32, 0x0fc19dc6#32, 0x240ca1cc#32, 0x2de92c6f#32, 0x4a7484aa#32,
   0x5cb0a9dc#32, 0x76f988da#32, 0x983e5152#32, 0xa831c66d#32, 0xb00327c8#32, 0xbf597fc7#32,
   0xc6e00bf3#32, 0xd5a79147#32, 0x06ca6351#32, 0x14292967#32] ++
  [0x27b70a85#32, 0x2e1b2138#32, 0x4d2c6dfc#32, 0x53380d13#32, 0x650a7354#32, 0x766a0abb#32,
   0x81c2c92e#32, 0x92722c85#32, 0xa2bfe8a1#32, 0xa81a664b#32, 0xc24b8b70#32, 0xc76c51a3#32,
   0xd192e819#32, 0xd6990624#32, 0xf40e3585#32, 0x106aa070#32] ++
  [0x19a4c116#32, 0x1e376c08#32, 0x2748774c#32, 0x34b0bcb5#32, 0x391c0cb3#32, 0x4ed8aa4a#32,
   0x5b9cca4f#32, 0x682e6ff3#32, 0x748f82ee#32, 0x78a5636f#32, 0x84c87814#32, 0x8cc70208#32,
   0x90befffa#32, 0xa4506ceb#32, 0xbef9a3f7#32, 0xc67178f2#32]

/-- The initial hash value: the fractional parts of the square roots of the first 8 primes. -/
def shaInit : List Word32 :=
  [0x6a09e667#32, 0xbb67ae85#32, 0x3c6ef372#32, 0xa54ff53a#32, 0x510e527f#32, 0x9b05688c#32,
   0x1f83d9ab#32, 0x5be0cd19#32]

/-- The length of a message in bits as 8 bytes, most significant first. -/
def shaLengthBytes (n : Nat) : List Byte :=
  [56, 48, 40, 32, 24, 16, 8, 0].map (fun k => BitVec.ofNat 8 (n >>> k))

/-- The padded message: a one bit, zeros, the length in 64 bits. -/
def shaPad (msg : List Byte) : List Byte :=
  msg ++ 0x80#8 :: List.replicate ((119 - msg.length % 64) % 64) 0x00#8 ++ shaLengthBytes (8 * msg.length)

/-- The first `n` words of 4 bytes, most significant byte first. -/
def shaWords : Nat → List Byte → List Word32
  | n + 1, b3 :: b2 :: b1 :: b0 :: bs => (b3 ++ b2 ++ b1 ++ b0) :: shaWords n bs
  | _, _ => []

/-- Extends a message schedule, newest word first, by `n` words. -/
def shaExtend : Nat → List Word32 → List Word32
  | 0, w => w
  | n + 1, w =>
    shaExtend n
      ((shaSmallSigma1 (w.getD 1 0) + w.getD 6 0 + shaSmallSigma0 (w.getD 14 0) + w.getD 15 0) :: w)

/-- The 64 words of a block's message schedule. -/
def shaSchedule (block : List Byte) : List Word32 := (shaExtend 48 (shaWords 16 block).reverse).reverse

/-- One round on the eight working variables. -/
def shaRound (v : List Word32) (k w : Word32) : List Word32 :=
  match v with
  | [a, b, c, d, e, f, g, h] =>
    let t1 := h + shaBigSigma1 e + shaCh e f g + k + w
    let t2 := shaBigSigma0 a + shaMaj a b c
    [t1 + t2, a, b, c, d + t1, e, f, g]
  | v => v

/-- The rounds over the constants and the schedule. -/
def shaRounds : List Word32 → List Word32 → List Word32 → List Word32
  | k :: ks, w :: ws, v => shaRounds ks ws (shaRound v k w)
  | _, _, v => v

/-- The hash value after one more block. -/
def shaBlock (hash : List Word32) (block : List Byte) : List Word32 :=
  List.zipWith (· + ·) hash (shaRounds shaK (shaSchedule block) hash)

/-- The hash value after at most `n` more blocks of 64 bytes. -/
def shaBlocks : Nat → List Byte → List Word32 → List Word32
  | 0, _, hash => hash
  | n + 1, bs, hash => shaBlocks n (bs.drop 64) (shaBlock hash (bs.take 64))

/-- The 32 bytes of SHA-256. -/
def sha256 (msg : List Byte) : List Byte :=
  (shaBlocks ((shaPad msg).length / 64) (shaPad msg) shaInit).flatMap
    (fun w => [w.extractLsb' 24 8, w.extractLsb' 16 8, w.extractLsb' 8 8, w.extractLsb' 0 8])

end Sys2Proof.Machine
end

