-- ==== Sys2Proof/Machine/Boot.lean ====
section
/-! DEFINITION. The boot: the loader's checks of a ROM file, the image copy through the checked write path and
the reset state (70_reset_and_hazards.md R240 to R249). The loader is the host's agent (00_scope.md R5). -/

namespace Sys2Proof.Machine

/-- Why a boot fails; the CPU then never steps (70_reset_and_hazards.md R240). -/
inductive BootFailure where
  /-- A check of R242 or the hash check of R244 fails. -/
  | malformedRom
  /-- The declared size exceeds `MAX_ROM_SIZE` (R249; 00_scope.md R8; log entry 11). -/
  | romFull
  /-- A region rule denies a loader write (R245). -/
  | memoryProtectionViolation
  /-- `ISA_TABLE` is not admitted (30_encoding.md R92; log entry 12). -/
  | tableNotAdmitted
  deriving DecidableEq, Repr

/-- The contents of a ROM container but for its size and hash (70_reset_and_hazards.md R241). The version bytes
are read and never checked (R242). -/
structure Rom where
  versionMajor : Byte
  versionIntermediate : Byte
  versionMinor : Byte
  initAddr : Addr
  panicAddr : Addr
  endAddr : Addr
  stream : List Byte
  deriving DecidableEq, Repr

/-- The magic ".SEBIS" in ASCII (70_reset_and_hazards.md R241). -/
def romMagic : List Byte := [0x2E#8, 0x53#8, 0x45#8, 0x42#8, 0x49#8, 0x53#8]

/-- The `n` bytes of a file from an offset on. -/
def slice (file : List Byte) (offset n : Nat) : List Byte := (file.drop offset).take n

/-- The big-endian 16-bit field at an offset of a file (70_reset_and_hazards.md R241). -/
def field16 (file : List Byte) (offset : Nat) : Addr :=
  pair (file.getD offset 0x00#8) (file.getD (offset + 1) 0x00#8)

/-- The loader's checks in their order, and the contents of the file they accept
(70_reset_and_hazards.md R242, R243, R244, R249). -/
def readRom (cfg : Config) (file : List Byte) : Except BootFailure Rom :=
  if file.length < 17 then .error .malformedRom
  else if slice file 0 6 ≠ romMagic then .error .malformedRom
  else if (field16 file 9).toNat < 6 ∨ file.length ≠ 11 + (field16 file 9).toNat + 32 then
    .error .malformedRom
  else if cfg.maxRomSize.toNat < (field16 file 9).toNat then .error .romFull
  else if cfg.verifyHash ∧
      sha256 (slice file 11 (field16 file 9).toNat) ≠ slice file (11 + (field16 file 9).toNat) 32 then
    .error .malformedRom
  else
    .ok {
      versionMajor := file.getD 6 0x00#8
      versionIntermediate := file.getD 7 0x00#8
      versionMinor := file.getD 8 0x00#8
      initAddr := field16 file 11
      panicAddr := field16 file 13
      endAddr := field16 file 15
      stream := slice file 17 ((field16 file 9).toNat - 6) }

/-- The image copy: each byte through the checked write path, at rising addresses; `none` when a write is
denied (70_reset_and_hazards.md R245). -/
def copyImage : List Byte → Addr → State → Option State
  | [], _, s => some s
  | b :: bs, addr, s =>
    match memWrite s addr b .write with
    | none => none
    | some s' => copyImage bs (addr + 1#16) s'

/-- The parameters with the boot addresses of a ROM (70_reset_and_hazards.md R243). -/
def bootConfig (cfg : Config) (rom : Rom) : Config :=
  { cfg with initAddr := rom.initAddr, panicAddr := rom.panicAddr, endAddr := rom.endAddr }

/-- The boot sequence: from the parameters and a ROM file to the state before the first step
(70_reset_and_hazards.md R240, R245, R246). -/
def boot (cfg : Config) (file : List Byte) : Except BootFailure State :=
  if cfg.isaTable.admitted = false then .error .tableNotAdmitted
  else
    match readRom cfg file with
    | .error e => .error e
    | .ok rom =>
      match copyImage rom.stream 0x0000#16 (State.resetWith (bootConfig cfg rom) []) with
      | none => .error .memoryProtectionViolation
      | some s => .ok s

end Sys2Proof.Machine
end

