-- ==== Sys2Proof/Machine/Asm.lean ====
section
/-! DEFINITION. The assembler's mnemonic syntax, emission and the ROM it writes (30_encoding.md R108 to R114,
70_reset_and_hazards.md R241, R249). The assembler stands outside the block (00_scope.md R4): no step uses this
file. Corner cases the rules leave open are log entries 14 to 17 and 21. -/

namespace Sys2Proof.Machine

/-- The operand shapes of mnemonics (30_encoding.md R110). -/
inductive OperandShape where
  | zero | label | optional | load | store
  deriving DecidableEq, Repr

/-- The assembler's errors (30_encoding.md R108 to R113, 70_reset_and_hazards.md R249). -/
inductive AsmError where
  | missingRequiredLabels
  | invalidOpcode
  | invalidNumberOfArguments (family : OperandShape)
  | invalidLongRegister
  | unknownLabelName
  | romFull
  deriving DecidableEq, Repr

/-- The mnemonic table: the 25 opcodes with flag 0 and the aliases SUB and DIV with flag 1
(30_encoding.md R109, R111). -/
def mnemonicTable : List (String × Opcode × Bool) :=
  [("NOP", .nop, false), ("LDA", .lda, false), ("LDB", .ldb, false), ("STA", .sta, false),
   ("STB", .stb, false), ("STC", .stc, false), ("SYSCALL", .syscall, false), ("ABC", .abc, false),
   ("SUB", .abc, true), ("MUL", .mul, false), ("DIV", .mul, true), ("JMP", .jmp, false),
   ("JZ", .jz, false), ("JNZ", .jnz, false), ("CMP", .cmp, false), ("CPL", .cpl, false)] ++
  [("AND", .land, false), ("XOR", .lxor, false), ("OR", .lor, false), ("HLT", .hlt, false),
   ("PANIC", .panic, false), ("MBNKROM", .mbnkrom, false), ("MBNKRAM", .mbnkram, false),
   ("ZERO", .zero, false), ("LDL", .ldl, false), ("LDH", .ldh, false), ("CLD", .cld, false)]

/-- A token matched against the mnemonic table without regard to case (30_encoding.md R109). -/
def mnemonicOf (token : List Char) : Option (Opcode × Bool) :=
  (mnemonicTable.find? (fun row => row.1.toList == token.map Char.toUpper)).map Prod.snd

/-- The operand shape of an opcode's mnemonics (30_encoding.md R110). -/
def operandShape : Opcode → OperandShape
  | .jmp | .jz | .jnz => .label
  | .cmp | .cpl => .optional
  | .lda | .ldb | .ldl | .ldh => .load
  | .sta | .stb | .stc => .store
  | .nop | .hlt | .abc | .mul | .lxor | .lor | .land | .syscall | .panic | .mbnkrom | .mbnkram | .zero
  | .cld => .zero

/-- The mode the encoder writes for a mnemonic without operand bytes (30_encoding.md R114). -/
def emittedMode : Opcode → ImplicitMode
  | .abc | .mul | .cmp | .cpl | .land | .lxor | .lor => .register
  | .nop | .lda | .ldb | .sta | .stb | .stc | .syscall | .jmp | .jz | .jnz | .hlt | .panic | .mbnkrom
  | .mbnkram | .zero | .ldl | .ldh | .cld => .null

/-! ### Literals -/

/-- The value of a digit in a base of at most 16. -/
def digitValue (base : Nat) (ch : Char) : Option Nat :=
  let n := ch.toNat
  let v := if 48 ≤ n ∧ n ≤ 57 then n - 48
    else if 97 ≤ n ∧ n ≤ 102 then n - 87
    else if 65 ≤ n ∧ n ≤ 70 then n - 55
    else 16
  if v < base then some v else none

/-- The number that digits write after the ones already read. -/
def digitsValue (base : Nat) : Nat → List Char → Option Nat
  | acc, [] => some acc
  | acc, ch :: chs =>
    match digitValue base ch with
    | none => none
    | some d => digitsValue base (acc * base + d) chs

/-- A number of at least one digit. -/
def numberOf (base : Nat) : List Char → Option Nat
  | [] => none
  | ch :: chs => digitsValue base 0 (ch :: chs)

/-- A numeric literal: decimal, which is `0` or begins with a digit 1 to 9; `0x` hex; `0b` binary; leading-zero
octal (30_encoding.md R112). -/
def literalOf : List Char → Option Nat
  | ['0'] => some 0
  | '0' :: 'x' :: ds => numberOf 16 ds
  | '0' :: 'b' :: ds => numberOf 2 ds
  | '0' :: ds => numberOf 8 ds
  | ds => numberOf 10 ds

/-- A literal within its range; anything else is `InvalidLongRegister` (30_encoding.md R112). -/
def literalBelow (bound : Nat) (text : List Char) : Except AsmError Nat :=
  match literalOf text with
  | none => .error .invalidLongRegister
  | some n => if n < bound then .ok n else .error .invalidLongRegister

/-- A CONSTANT operand, 0 to 255 (30_encoding.md R112). -/
def constantOperand (text : List Char) : Except AsmError Operand :=
  (literalBelow 256 text).map (fun n => .constant (BitVec.ofNat 8 n))

/-- A MEMORY operand, 0 to 65535 (30_encoding.md R112). -/
def memoryOperand (text : List Char) : Except AsmError Operand :=
  (literalBelow 65536 text).map (fun n => .memory (BitVec.ofNat 16 n))

/-- The operand of a load: MEMORY after the sigil, else CONSTANT (30_encoding.md R110). -/
def loadOperand : List Char → Except AsmError Operand
  | '$' :: text => memoryOperand text
  | text => constantOperand text

/-- The operand of a store: MEMORY, with or without the sigil (30_encoding.md R110). -/
def storeOperand : List Char → Except AsmError Operand
  | '$' :: text => memoryOperand text
  | text => memoryOperand text

/-! ### Lines -/

/-- White space within a line. -/
def isBlankChar (ch : Char) : Bool := ch == ' ' || ch == '\t' || ch == '\r'

/-- The whitespace-separated tokens of a line (30_encoding.md R109). -/
def tokensOf (line : List Char) : List (List Char) :=
  (line.foldr
    (fun ch acc =>
      if isBlankChar ch then [] :: acc
      else match acc with
        | [] => [[ch]]
        | tok :: toks => (ch :: tok) :: toks)
    [[]]).filter (fun tok => !tok.isEmpty)

/-- A line without its comment and the white space around it (30_encoding.md R108). -/
def trimLine (line : List Char) : List Char :=
  (((line.takeWhile (fun ch => ch != ';')).dropWhile isBlankChar).reverse.dropWhile isBlankChar).reverse

/-- The lines of a program that are not blank, trimmed (30_encoding.md R108). -/
def sourceLines (lines : List (List Char)) : List (List Char) :=
  (lines.map trimLine).filter (fun line => !line.isEmpty)

/-- The labels of trimmed lines with the index of the instruction each names, and the instruction lines
(30_encoding.md R108, R113). -/
def splitLabels : Nat → List (List Char) → List (List Char × Nat) × List (List Char)
  | _, [] => ([], [])
  | n, (':' :: name) :: lines =>
    let r := splitLabels n lines
    ((name, n) :: r.1, r.2)
  | n, line :: lines =>
    let r := splitLabels (n + 1) lines
    (r.1, line :: r.2)

/-- The instruction index of a label (30_encoding.md R113). Names are compared with regard to case, the three mandatory
ones included: R109 sets case aside for mnemonics and no rule speaks of labels. DESIGN CHOICE, log entry 21. -/
def labelIndex (labels : List (List Char × Nat)) (name : List Char) : Option Nat :=
  (labels.find? (fun row => row.1 == name)).map Prod.snd

/-- Whether a line's first token is JMP, JZ or JNZ. -/
def isJump (token : List Char) : Bool :=
  match mnemonicOf token with
  | some (op, _) => operandShape op == .label
  | none => false

/-- Label resolution of one line: the label of a jump becomes its address as decimal text
(30_encoding.md R113). -/
def resolveLine (labels : List (List Char × Nat)) (line : List Char) :
    Except AsmError (List (List Char)) :=
  match tokensOf line with
  | name :: label :: args =>
    if isJump name then
      match labelIndex labels label with
      | none => .error .unknownLabelName
      | some n => .ok (name :: Nat.toDigits 10 n :: args)
    else .ok (name :: label :: args)
  | toks => .ok toks

/-- An instruction from an opcode, a flag and an operand of a legal mode (30_encoding.md R94, R110). -/
def buildInstr (op : Opcode) (f : Bool) (o : Operand) : Except AsmError Instr :=
  match instrOf op f o with
  | none => .error .invalidOpcode
  | some i => .ok i

/-- One instruction from a mnemonic and its arguments (30_encoding.md R109 to R111, R114). -/
def assembleTokens : List (List Char) → Except AsmError Instr
  | [] => .error .invalidOpcode
  | name :: args =>
    match mnemonicOf name with
    | none => .error .invalidOpcode
    | some (op, f) =>
      match operandShape op, args with
      | .zero, _ => buildInstr op f (.implicit (emittedMode op))
      | .optional, [] => buildInstr op false (.implicit (emittedMode op))
      | .optional, [arg] => buildInstr op (arg != ['0']) (.implicit (emittedMode op))
      | .label, [arg] => (memoryOperand arg).bind (buildInstr op f)
      | .load, [arg] => (loadOperand arg).bind (buildInstr op f)
      | .store, [arg] => (storeOperand arg).bind (buildInstr op f)
      | shape, _ => .error (.invalidNumberOfArguments shape)

/-- Every line resolved; the first failure is the assembly's (30_encoding.md R113). -/
def resolveLines (labels : List (List Char × Nat)) :
    List (List Char) → Except AsmError (List (List (List Char)))
  | [] => .ok []
  | line :: lines =>
    match resolveLine labels line with
    | .error e => .error e
    | .ok toks =>
      match resolveLines labels lines with
      | .error e => .error e
      | .ok rest => .ok (toks :: rest)

/-- Every line assembled; the first failure is the assembly's (30_encoding.md R109). -/
def assembleLines : List (List (List Char)) → Except AsmError (List Instr)
  | [] => .ok []
  | toks :: lines =>
    match assembleTokens toks with
    | .error e => .error e
    | .ok i =>
      match assembleLines lines with
      | .error e => .error e
      | .ok is => .ok (i :: is)

/-- An assembled program: its instructions and the indices of the three mandatory labels
(30_encoding.md R108, R113). -/
structure Program where
  instrs : List Instr
  initIndex : Nat
  panicIndex : Nat
  endIndex : Nat
  deriving DecidableEq, Repr

/-- Assembles source lines: labels, the three mandatory ones checked, resolution, then tokenization
(30_encoding.md R108 to R113). -/
def assemble (lines : List (List Char)) : Except AsmError Program :=
  let split := splitLabels 0 (sourceLines lines)
  match labelIndex split.1 "init".toList, labelIndex split.1 "panic".toList,
    labelIndex split.1 "end".toList with
  | some i, some p, some e =>
    match resolveLines split.1 split.2 with
    | .error err => .error err
    | .ok toks => (assembleLines toks).map (fun is => ⟨is, i, p, e⟩)
  | _, _, _ => .error .missingRequiredLabels

/-! ### The ROM writer -/

/-- The ROM contents of an assembled program under an ISA table, with the label addresses as the assembler
writes them: instruction indices (30_encoding.md R113, R114; 70_reset_and_hazards.md R243). -/
def Program.rom (p : Program) (t : IsaTable) (major intermediate minor : Byte) : Rom where
  versionMajor := major
  versionIntermediate := intermediate
  versionMinor := minor
  initAddr := BitVec.ofNat 16 p.initIndex
  panicAddr := BitVec.ofNat 16 p.panicIndex
  endAddr := BitVec.ofNat 16 p.endIndex
  stream := encodeAll t p.instrs

/-- A 16-bit value as two bytes, high byte first (70_reset_and_hazards.md R241). -/
def bytes16 (v : Addr) : List Byte := [highByte v, lowByte v]

/-- The bytes the hash covers: the three addresses and the stream (70_reset_and_hazards.md R241). -/
def Rom.hashed (rom : Rom) : List Byte :=
  bytes16 rom.initAddr ++ bytes16 rom.panicAddr ++ bytes16 rom.endAddr ++ rom.stream

/-- The ROM file, or `RomFull` for an image larger than `MAX_ROM_SIZE` (70_reset_and_hazards.md R241, R249). -/
def writeRom (cfg : Config) (rom : Rom) : Except AsmError (List Byte) :=
  if cfg.maxRomSize.toNat < 6 + rom.stream.length then .error .romFull
  else
    .ok (romMagic ++ [rom.versionMajor, rom.versionIntermediate, rom.versionMinor] ++
      bytes16 (BitVec.ofNat 16 (6 + rom.stream.length)) ++ rom.hashed ++ sha256 rom.hashed)

end Sys2Proof.Machine
end

