-- ==== Sys2Proof/Safety.lean ====
section
/-! DEFINITION. The terms that claims about the machine use: the invariant of every step, runs, and the relations
between two states that isolation claims compare. -/

namespace Sys2Proof.Safety

open Sys2Proof.Machine

/-! ### The invariant -/

/-- Status and cause agree: NONE while RUNNING, HALT when HALTED, a trappable cause only under policy HALT, a
double fault only under policy TRAP (10_state.md R34, R36; 60_exceptions.md R205, R208, R209). -/
def StatusAgrees (s : State) : Prop :=
  match s.status, s.cause with
  | .running, .none => True
  | .halted, .halt => True
  | .fatal, .trap _ => s.cfg.policy = .halt
  | .fatal, .fatal .doubleFault => s.cfg.policy = .trap
  | .fatal, .fatal .invalidOpcode => True
  | .fatal, .fatal .illegalAddressMode => True
  | _, _ => False

/-- A stop, by HLT or fatal, is the last record of the event output, with the start of the instruction that stopped
(60_exceptions.md R203, R205, R209; for HLT log entry 5). -/
def StopRecorded (s : State) : Prop :=
  s.status ≠ .running → ∃ info, s.events.getLast? = some ⟨s.cause, info, s.start⟩

/-- What every step keeps: memory in canonical form, status and cause in agreement, a stop recorded. -/
def Inv (s : State) : Prop := Memory.wf s.mem = true ∧ StatusAgrees s ∧ StopRecorded s

/-! ### Runs -/

/-- A run of at most `k` steps that does not go on after the CPU has stopped: it ends early in the state in which
the status left RUNNING (70_reset_and_hazards.md R254). -/
def runUntilStop : Nat → State → Result
  | 0, s => .next s
  | k + 1, s =>
    match s.status with
    | .running =>
      match Sys2Proof.Machine.step s with
      | .next t => runUntilStop k t
      | .fault r => .fault r
      | .refused r => .refused r
    | .halted => .next s
    | .fatal => .next s

/-- A safe run of `k` steps: it neither stops fatally nor leaves the machine's next states. -/
def SafeRun (k : Nat) (s : State) : Prop := ∃ t, runUntilStop k s = .next t ∧ t.status ≠ .fatal

/-- A byte no instruction may write (20_memory.md R54). -/
def WriteProtected (s : State) (addr : Addr) : Prop := permitted s.cfg.regions addr .write = false

/-- A byte no instruction may read or fetch (20_memory.md R54). -/
def Hidden (s : State) (addr : Addr) : Prop :=
  permitted s.cfg.regions addr .read = false ∧ permitted s.cfg.regions addr .exec = false

/-! ### Instructions in memory -/

/-- An instruction lies at an address: its encoding under the state's ISA table, each byte fetchable
(30_encoding.md R80, R86). -/
def Placed (i : Instr) (addr : Addr) (s : State) : Prop :=
  ∀ k byte, (encode s.cfg.isaTable i)[k]? = some byte →
    s.byteAt (addr + BitVec.ofNat 16 k) = byte ∧
      permitted s.cfg.regions (addr + BitVec.ofNat 16 k) .exec = true

/-- The state in which an instruction executes: `start` set and the PC past its bytes (30_encoding.md R97,
R98). -/
def atExecution (i : Instr) (s : State) : State :=
  { s with start := s.pc, pc := s.pc + BitVec.ofNat 16 (encode s.cfg.isaTable i).length }

/-- The same instruction with an ignored flag bit cleared and NULL for REGISTER (30_encoding.md R82, R94). -/
def plainForm : Instr → Instr
  | .nop _ _ => .nop false .null
  | .ldaConst _ imm => .ldaConst false imm
  | .ldaMem _ addr => .ldaMem false addr
  | .ldbConst _ imm => .ldbConst false imm
  | .ldbMem _ addr => .ldbMem false addr
  | .sta _ addr => .sta false addr
  | .stb _ addr => .stb false addr
  | .stc _ addr => .stc false addr
  | .syscall _ _ => .syscall false .null
  | .abc _ => .abc .null
  | .sub _ => .sub .null
  | .mul _ => .mul .null
  | .div _ => .div .null
  | .jmp _ addr => .jmp false addr
  | .jz _ addr => .jz false addr
  | .jnz _ addr => .jnz false addr
  | .cmpEq _ => .cmpEq .null
  | .cmpLt _ => .cmpLt .null
  | .cplA _ => .cplA .null
  | .cplB _ => .cplB .null
  | .andAB _ _ => .andAB false .null
  | .xorAB _ _ => .xorAB false .null
  | .orAB _ _ => .orAB false .null
  | .hlt _ _ => .hlt false .null
  | .panic _ _ => .panic false .null
  | .mbnkrom _ _ => .mbnkrom false .null
  | .mbnkram _ _ => .mbnkram false .null
  | .zero _ _ => .zero false .null
  | .ldlConst _ imm => .ldlConst false imm
  | .ldlMem _ addr => .ldlMem false addr
  | .ldhConst _ imm => .ldhConst false imm
  | .ldhMem _ addr => .ldhMem false addr
  | .cld _ _ => .cld false .null

/-- The registers an instruction reads under a capability check, in the order of its rule
(10_state.md R22, R27). -/
def checkedReads (cfg : Config) : Instr → List Reg8
  | .sta _ _ => [.a]
  | .stb _ _ => [if cfg.storeByName then .b else .a]
  | .stc _ _ => [if cfg.storeByName then .c else .a]
  | .abc _ | .sub _ | .mul _ | .div _ | .cmpEq _ | .cmpLt _ | .andAB _ _ | .xorAB _ _ | .orAB _ _ => [.a, .b]
  | .cplA _ => [.a]
  | .cplB _ => [.b]
  | .jz _ _ | .jnz _ _ => [.c]
  | .nop _ _ | .ldaConst _ _ | .ldaMem _ _ | .ldbConst _ _ | .ldbMem _ _ | .syscall _ _ | .jmp _ _ | .hlt _ _
  | .panic _ _ | .mbnkrom _ _ | .mbnkram _ _ | .zero _ _ | .ldlConst _ _ | .ldlMem _ _ | .ldhConst _ _
  | .ldhMem _ _ | .cld _ _ => []

/-- The registers an instruction writes under a capability check, in the order of its rule
(10_state.md R22, R27). -/
def checkedWrites : Instr → List CapReg
  | .ldaConst _ _ | .ldaMem _ _ => [.reg8 .a]
  | .ldbConst _ _ | .ldbMem _ _ => [.reg8 .b]
  | .ldlConst _ _ | .ldlMem _ _ => [.reg8 .l]
  | .ldhConst _ _ | .ldhMem _ _ => [.reg8 .h]
  | .abc _ | .sub _ | .mul _ | .div _ | .cmpEq _ | .cmpLt _ | .cplA _ | .cplB _ | .andAB _ _ | .xorAB _ _
  | .orAB _ _ => [.reg8 .c]
  | .mbnkrom _ _ | .mbnkram _ _ => [.m]
  | .zero _ _ => [.reg8 .a, .reg8 .b, .reg8 .c]
  | .cld _ _ => [.reg8 .l, .reg8 .h]
  | .nop _ _ | .sta _ _ | .stb _ _ | .stc _ _ | .syscall _ _ | .jmp _ _ | .jz _ _ | .jnz _ _ | .hlt _ _
  | .panic _ _ => []

/-- The data access an instruction makes: its address and mode (20_memory.md R51). -/
def dataAccess : Instr → Option (Addr × AccessMode)
  | .ldaMem _ addr | .ldbMem _ addr | .ldlMem _ addr | .ldhMem _ addr => some (addr, .read)
  | .sta _ addr | .stb _ addr | .stc _ addr => some (addr, .write)
  | .nop _ _ | .ldaConst _ _ | .ldbConst _ _ | .syscall _ _ | .abc _ | .sub _ | .mul _ | .div _ | .jmp _ _
  | .jz _ _ | .jnz _ _ | .cmpEq _ | .cmpLt _ | .cplA _ | .cplB _ | .andAB _ _ | .xorAB _ _ | .orAB _ _
  | .hlt _ _ | .panic _ _ | .mbnkrom _ _ | .mbnkram _ _ | .zero _ _ | .ldlConst _ _ | .ldhConst _ _
  | .cld _ _ => none

/-- Every check an instruction makes in execution passes: the capabilities of its registers, the divisor of DIV, its
data access (60_exceptions.md R210, checks 7 to 9). -/
def ChecksPass (i : Instr) (s : State) : Prop :=
  (∀ r ∈ checkedReads s.cfg i, (capOf s.cfg.regCaps (.reg8 r)).readable = true) ∧
    (∀ r ∈ checkedWrites i, (capOf s.cfg.regCaps r).writable = true) ∧
    (∀ m, i = .div m → s.b ≠ 0x00#8) ∧
    ∀ addr mode, dataAccess i = some (addr, mode) → permitted s.cfg.regions addr mode = true

/-! ### Pairs of states -/

/-- Two outcomes are of one kind, and their next states are related. -/
def Related (R : State → State → Prop) : Result → Result → Prop
  | .next s, .next t => R s t
  | .fault r, .fault r' => r = r'
  | .refused r, .refused r' => r = r'
  | _, _ => False

/-- The same but for L, H, M, LRAP and the model's `start`: the registers no instruction reads
(10_state.md R22). -/
def SameButUnread (s t : State) : Prop :=
  s.a = t.a ∧ s.b = t.b ∧ s.c = t.c ∧ s.pc = t.pc ∧ s.mem = t.mem ∧ s.status = t.status ∧
    s.cause = t.cause ∧ s.events = t.events ∧ s.cfg = t.cfg

/-- The same but for the byte at one address. -/
def SameButByte (addr : Addr) (s t : State) : Prop :=
  s.a = t.a ∧ s.b = t.b ∧ s.c = t.c ∧ s.l = t.l ∧ s.h = t.h ∧ s.m = t.m ∧ s.lrap = t.lrap ∧ s.pc = t.pc ∧
    s.status = t.status ∧ s.cause = t.cause ∧ s.events = t.events ∧ s.start = t.start ∧ s.cfg = t.cfg ∧
    ∀ other : Addr, other ≠ addr → s.byteAt other = t.byteAt other

/-- A state under other values of the parameters that no rule of the CPU reads: INIT_ADDR after reset, END_ADDR,
THROTTLE, MAX_ROM_SIZE, VERIFY_HASH (42_control.md R178; 30_encoding.md R99; 00_scope.md R8). -/
def reconfigured (initAddr endAddr : Addr) (throttle : Nat) (maxRomSize : Addr) (verifyHash : Bool)
    (s : State) : State :=
  { s with
    cfg := { s.cfg with
      initAddr := initAddr, endAddr := endAddr, throttle := throttle, maxRomSize := maxRomSize,
      verifyHash := verifyHash } }

/-- An outcome with its next state changed by a function. -/
def mapNext (f : State → State) : Result → Result
  | .next s => .next (f s)
  | .fault r => .fault r
  | .refused r => .refused r

end Sys2Proof.Safety
end

