-- ==== Sys2Proof/Certificates/Slice0/Obligations.lean ====
section
/-! DEFINITION. The statements for the provers. -/

open Sys2Proof Sys2Proof.Machine Sys2Proof.Safety

/-! ### Encoding -/

/-- Under every admitted ISA table, decoding an encoded instruction gives it back and leaves the bytes after it
(30_encoding.md R81 to R91). Every operand, flag and mode an encoding admits is a value of the constructor. -/
def Obligations.DecodeEncodeRoundTrip : Prop :=
  ∀ (t : IsaTable) (i : Instr) (rest : List Byte), t.admitted = true →
    decode t (encode t i ++ rest) = .ok (i, rest)

/-- Under every admitted ISA table, the bytes an instruction was decoded from are its encoding
(30_encoding.md R80, R81, R84). -/
def Obligations.EncodeDecodeInverse : Prop :=
  ∀ (t : IsaTable) (bytes rest : List Byte) (i : Instr), t.admitted = true →
    decode t bytes = .ok (i, rest) → bytes = encode t i ++ rest

/-- Decoding the stream of a sequence of instructions gives back the sequence, and so its triples of opcode,
flag and address mode (30_encoding.md R104). -/
def Obligations.StreamDecodesBack : Prop :=
  ∀ (t : IsaTable) (is : List Instr), t.admitted = true →
    ∃ js, decodeAll t is.length (encodeAll t is) = .ok js ∧ js.map Instr.triple = is.map Instr.triple ∧ js = is

/-- An encoding is as long as its own control byte 0 says: control bytes plus operand bytes, 1 to 5
(30_encoding.md R80, R85). -/
def Obligations.EncodingLengthFromByteZero : Prop :=
  ∀ (t : IsaTable) (i : Instr), t.admitted = true →
    ∃ e b0 bs, e ∈ t ∧ e.op = i.opcode ∧ encode t i = b0 :: bs ∧
      lengthOf b0 = some (encode t i).length ∧
      (encode t i).length = e.sizeClass.controlBytes + i.operand.mode.operandBytes ∧
      1 ≤ (encode t i).length ∧ (encode t i).length ≤ 5

/-- The lookup in an admitted table answers an opcode exactly when the table has an entry of that opcode with
that size class and those fragments (30_encoding.md R91, R92). -/
def Obligations.LookupFindsTheEntry : Prop :=
  ∀ (t : IsaTable) (sc : SizeClass) (frags : List Byte) (op : Opcode), t.admitted = true →
    (lookup t sc frags = some op ↔ ∃ e ∈ t, e.op = op ∧ e.sizeClass = sc ∧ e.frags = frags)

/-- An admitted table encodes every instruction (30_encoding.md R92). -/
def Obligations.AdmittedTableEncodesAll : Prop :=
  ∀ (t : IsaTable) (i : Instr), t.admitted = true → i.wf t = true

/-- Words of the default table (30_encoding.md R95), a sanity statement: the table is admitted, and one word of
each family decodes to its instruction. -/
def Obligations.SomeWordsDecode : Prop :=
  defaultIsaTable.admitted = true ∧
  decode defaultIsaTable [0x51#8, 0x1F#8] = .ok (.ldaConst false 0x1F#8, []) ∧
  decode defaultIsaTable [0x5C#8, 0x02#8, 0x00#8] = .ok (.stb false 0x0200#16, []) ∧
  decode defaultIsaTable [0x6F#8] = .ok (.sub .register, []) ∧
  decode defaultIsaTable [0xA8#8, 0x04#8] = .ok (.cmpLt .register, []) ∧
  decode defaultIsaTable [0x98#8, 0x02#8, 0x12#8, 0x34#8] = .ok (.jz false 0x1234#16, []) ∧
  decode defaultIsaTable [0x80#8, 0x0C#8] = .ok (.mbnkram false .null, []) ∧
  decode defaultIsaTable [0x00#8] = .error .sizeClassZero ∧
  decode defaultIsaTable [0x80#8, 0x11#8] = .error .notFound ∧
  decode defaultIsaTable [0x50#8, 0x07#8] = .error .illegalAddressMode

/-- The ignored flag bit, and NULL against REGISTER, change nothing an instruction does
(30_encoding.md R82, R94). -/
def Obligations.IgnoredBitsChangeNothing : Prop :=
  ∀ (i : Instr) (s : State), exec i s = exec (plainForm i) s

/-! ### The step -/

/-- When the bytes at the PC are the encoding of an instruction and may be fetched, the step is that instruction's
execution, with `start` at its first byte and the PC past its last (30_encoding.md R86, R97, R98). -/
def Obligations.StepRunsDecodedInstruction : Prop :=
  ∀ (i : Instr) (s : State), s.status = .running → s.cfg.isaTable.admitted = true → Placed i s.pc s →
    step s = exec i (atExecution i s)

/-- A running CPU always takes its step to a next state, whatever memory holds and whatever the parameters are;
a CPU that has stopped takes none (10_state.md R34, 30_encoding.md R97). -/
def Obligations.StepAnswersExactlyWhileRunning : Prop :=
  ∀ s : State, (s.status = .running → ∃ t, step s = .next t) ∧
    (s.status ≠ .running → step s = .fault .cpuStopped)

/-- `FetchByte`: the byte at the PC in EXEC mode and the PC one further modulo 65536, or a FETCH_VIOLATION with
the PC's address; after a whole instruction the PC is past its bytes (30_encoding.md R86). -/
def Obligations.FetchAdvancesThePc : Prop :=
  ∀ s : State,
    (permitted s.cfg.regions s.pc .exec = true →
      fetchByte s = .ok (s.byteAt s.pc, { s with pc := s.pc + 1#16 })) ∧
    (permitted s.cfg.regions s.pc .exec = false →
      fetchByte s = .error (raiseTrap .fetchViolation (.address s.pc) s)) ∧
    (∀ bytes t, fetchInstr s = .ok (bytes, t) →
      lengthOf (s.byteAt s.pc) = some bytes.length ∧
        t = { s with pc := s.pc + BitVec.ofNat 16 bytes.length } ∧
        ∀ k, k < bytes.length → bytes[k]? = some (s.byteAt (s.pc + BitVec.ofNat 16 k)))

/-- Size class 0: any byte 0x00 to 0x3F stops the CPU with INVALID_OPCODE, the PC one past it and nothing more
fetched. After a reset with no image loaded every byte of memory is 0x00, so such a fetch stops the CPU; for memory after
a boot BootLeavesResetState says which bytes are 0x00 (30_encoding.md R93, 10_state.md R35). -/
def Obligations.SizeClassZeroStops : Prop :=
  (∀ s : State, s.status = .running → permitted s.cfg.regions s.pc .exec = true →
    (s.byteAt s.pc).toNat < 0x40 →
    step s = .next { s with
      start := s.pc, pc := s.pc + 1#16, status := .fatal, cause := .fatal .invalidOpcode,
      events := s.events ++ [⟨.fatal .invalidOpcode, .none, s.pc⟩] }) ∧
  ∀ (cfg : Config) (addr : Addr), (State.resetWith cfg []).byteAt addr = 0x00#8

/-- Bytes that were all fetched but name no opcode, or an opcode in a mode outside the table of R94, stop the CPU:
INVALID_OPCODE for the first, ILLEGAL_ADDRESS_MODE for the second (30_encoding.md R91, R94, R97). -/
def Obligations.RejectedEncodingStops : Prop :=
  ∀ (s t : State) (b0 : Byte) (frags operands : List Byte) (sc : SizeClass), s.status = .running →
    fetchInstr { s with start := s.pc } = .ok (b0 :: (frags ++ operands), t) →
    sizeClassOf b0 = some sc → frags.length + 1 = sc.controlBytes →
    (lookup s.cfg.isaTable sc (frag0Of b0 :: frags) = none →
      step s = .next { t with
        status := .fatal, cause := .fatal .invalidOpcode,
        events := s.events ++ [⟨.fatal .invalidOpcode, .none, s.pc⟩] }) ∧
    (∀ op, lookup s.cfg.isaTable sc (frag0Of b0 :: frags) = some op → addressModeOf b0 ∉ op.legalModes →
      step s = .next { t with
        status := .fatal, cause := .fatal .illegalAddressMode,
        events := s.events ++ [⟨.fatal .illegalAddressMode, .none, s.pc⟩] })

/-- Under the default table every Extra encoding fetches all its 3 to 5 bytes and then stops the CPU with
INVALID_OPCODE (30_encoding.md R100). -/
def Obligations.ExtraEncodingsStop : Prop :=
  (∀ e ∈ defaultIsaTable, e.sizeClass ≠ .extra) ∧
  ∀ (s : State) (len : Nat), s.status = .running → s.cfg.isaTable = defaultIsaTable →
    0xC0 ≤ (s.byteAt s.pc).toNat → len = 3 + (addressModeOf (s.byteAt s.pc)).operandBytes →
    (∀ k, k < len → permitted s.cfg.regions (s.pc + BitVec.ofNat 16 k) .exec = true) →
    step s = .next { s with
      start := s.pc, pc := s.pc + BitVec.ofNat 16 len, status := .fatal, cause := .fatal .invalidOpcode,
      events := s.events ++ [⟨.fatal .invalidOpcode, .none, s.pc⟩] }

/-- The first instruction byte that may not be fetched traps, whatever the bytes would decode to: a fetch violation
comes before the lookup and before the mode check (30_encoding.md R86, R97; 60_exceptions.md R210). -/
def Obligations.FirstDeniedFetchTraps : Prop :=
  ∀ (s : State) (n len : Nat), s.status = .running →
    (n = 0 ∨ lengthOf (s.byteAt s.pc) = some len ∧ n < len) →
    (∀ k, k < n → permitted s.cfg.regions (s.pc + BitVec.ofNat 16 k) .exec = true) →
    permitted s.cfg.regions (s.pc + BitVec.ofNat 16 n) .exec = false →
    step s = .next (raiseTrap .fetchViolation (.address (s.pc + BitVec.ofNat 16 n))
      { s with start := s.pc, pc := s.pc + BitVec.ofNat 16 n })

/-! ### Invariants and isolation -/

/-- Every step keeps the invariant: memory in canonical form, the stop cause in agreement with the status and the
policy, a stop recorded as the last event (10_state.md R34, R36; 60_exceptions.md R203 to R209). That HLT's stop is
recorded too is log entry 5. -/
def Obligations.StepKeepsInvariant : Prop :=
  ∀ s t : State, Inv s → step s = .next t → Inv t

/-- The invariant holds after reset, under any parameters. -/
def Obligations.ResetHasInvariant : Prop :=
  Inv State.reset ∧ ∀ cfg : Config, Inv (State.resetWith cfg [])

/-- No run changes a byte that a region rule protects from writing, whatever instructions it executes
(20_memory.md R58). -/
def Obligations.WriteProtectedByteNeverChanges : Prop :=
  ∀ (k : Nat) (s t : State) (addr : Addr), WriteProtected s addr → runUntilStop k s = .next t →
    t.byteAt addr = s.byteAt addr

/-- No run changes a parameter (10_state.md R31, R32; 20_memory.md R52). -/
def Obligations.ConfigurationNeverChanges : Prop :=
  ∀ (k : Nat) (s t : State), runUntilStop k s = .next t → t.cfg = s.cfg

/-- No step learns the byte at an address that may be neither read nor fetched: two states that differ in that byte
alone take the same step (20_memory.md R54, R56, R57). -/
def Obligations.HiddenByteIsNotLearned : Prop :=
  ∀ (addr : Addr) (s t : State), Hidden s addr → SameButByte addr s t →
    Related (SameButByte addr) (step s) (step t)

/-- L, H, M and LRAP, and the model's own `start` field, are read by no step: two states that differ in them alone
take the same step (10_state.md R22 to R25; 20_memory.md R66; log entry 2 for `start`). -/
def Obligations.UnreadRegistersHaveNoEffect : Prop :=
  ∀ s t : State, SameButUnread s t → Related SameButUnread (step s) (step t)

/-- END_ADDR, THROTTLE, INIT_ADDR and the two boot-time parameters change no step
(42_control.md R178; 30_encoding.md R99; 10_state.md R32). -/
def Obligations.UnreadParametersHaveNoEffect : Prop :=
  ∀ (initAddr endAddr maxRomSize : Addr) (throttle : Nat) (verifyHash : Bool) (s : State),
    step (reconfigured initAddr endAddr throttle maxRomSize verifyHash s) =
      mapNext (reconfigured initAddr endAddr throttle maxRomSize verifyHash) (step s)

/-- Which instructions change which register: the "Written by" column of 10_state.md R22, the stores for memory, and HLT
and traps for the status, the cause and the event output. Each exception in the list is the only way that part of the
state changes in execution (10_state.md R22, R29, R34; 60_exceptions.md R203; for HLT's record log entry 5). -/
def Obligations.OnlyNamedInstructionsWrite : Prop :=
  ∀ (i : Instr) (s t : State), exec i s = .next t →
    (t.a ≠ s.a → i.opcode ∈ [.lda, .zero]) ∧
    (t.b ≠ s.b → i.opcode ∈ [.ldb, .zero]) ∧
    (t.c ≠ s.c → i.opcode ∈ [.abc, .mul, .cmp, .cpl, .land, .lxor, .lor, .zero]) ∧
    (t.l ≠ s.l → i.opcode ∈ [.ldl, .cld]) ∧
    (t.h ≠ s.h → i.opcode ∈ [.ldh, .cld]) ∧
    (t.m ≠ s.m → i.opcode ∈ [.mbnkrom, .mbnkram]) ∧
    (t.lrap ≠ s.lrap → i.opcode = .panic ∨ ∃ c info, t = raiseTrap c info s) ∧
    (t.pc ≠ s.pc → i.opcode ∈ [.jmp, .jz, .jnz, .panic] ∨ ∃ c info, t = raiseTrap c info s) ∧
    (t.mem ≠ s.mem → i.opcode ∈ [.sta, .stb, .stc]) ∧
    (t.status ≠ s.status → i.opcode = .hlt ∨ ∃ c info, t = raiseTrap c info s) ∧
    (t.cause ≠ s.cause → i.opcode = .hlt ∨ ∃ c info, t = raiseTrap c info s) ∧
    (t.events ≠ s.events → i.opcode = .hlt ∨ ∃ c info, t = raiseTrap c info s) ∧
    t.start = s.start ∧ t.cfg = s.cfg

/-- A step emits no record or one, whose start is the instruction's. It emits none exactly when an instruction other than
HLT was fetched and decoded and all its checks pass; the CPU then goes on. In every other case, a denied fetch, a rejected
encoding, a failed check or HLT, it emits one, and it has entered the handler, stopped fatally, or halted, with the cause
the record holds (60_exceptions.md R203, R205, R209, R210, R211). That HLT emits a record is the model's reading of R203,
log entry 5. -/
def Obligations.AtMostOneEventPerStep : Prop :=
  ∀ s t : State, step s = .next t →
    (t.events = s.events ↔
      ∃ i u, fetchDecode s = .ok (i, u) ∧ i.opcode ≠ .hlt ∧ ChecksPass i u) ∧
    ((t.events = s.events ∧ t.status = .running ∧ t.cause = s.cause) ∨
      ∃ e, t.events = s.events ++ [e] ∧ e.start = s.pc ∧
        ((t.status = .fatal ∧ t.cause = e.cause) ∨
          (t.status = .halted ∧ t.cause = .halt ∧ e.cause = .halt ∧ e.info = .none) ∨
          (t.status = .running ∧ s.cfg.policy = .trap ∧ t.lrap = s.pc ∧ t.pc = s.cfg.panicAddr ∧
            ∃ c : TrapCause, e.cause = .trap c)))

/-- Traps and stops are precise: a step that emits an event writes no register but LRAP and the PC, and no memory byte
(60_exceptions.md R204, R206; 40_load_store.md R129). HLT is among these steps by log entry 5. -/
def Obligations.FaultsArePrecise : Prop :=
  ∀ s t : State, step s = .next t → t.events ≠ s.events →
    t.a = s.a ∧ t.b = s.b ∧ t.c = s.c ∧ t.l = s.l ∧ t.h = s.h ∧ t.m = s.m ∧ t.mem = s.mem

/-! ### Traps and stops -/

/-- Trap entry: the three cases of the policy and the panic address, and everything that changes in each; the default
policy is TRAP (60_exceptions.md R205, R206, R208). -/
def Obligations.TrapEntryCases : Prop :=
  Config.default.policy = .trap ∧ ∀ (c : TrapCause) (info : Info) (s : State),
    (s.cfg.policy = .halt →
      raiseTrap c info s = { s with
        status := .fatal, cause := .trap c, events := s.events ++ [⟨.trap c, info, s.start⟩] }) ∧
    (s.cfg.policy = .trap → s.start = s.cfg.panicAddr →
      raiseTrap c info s = { s with
        status := .fatal, cause := .fatal .doubleFault,
        events := s.events ++ [⟨.fatal .doubleFault, .inner c, s.start⟩] }) ∧
    (s.cfg.policy = .trap → s.start ≠ s.cfg.panicAddr →
      raiseTrap c info s = { s with
        lrap := s.start, pc := s.cfg.panicAddr, events := s.events ++ [⟨.trap c, info, s.start⟩] })

/-- A fatal stop sets the status and the cause, emits its event, leaves everything else, and no step follows
(60_exceptions.md R209). -/
def Obligations.FatalStopEndsTheRun : Prop :=
  ∀ (c : FatalCause) (info : Info) (s : State),
    raiseFatal c info s = { s with
      status := .fatal, cause := .fatal c, events := s.events ++ [⟨.fatal c, info, s.start⟩] } ∧
    step (raiseFatal c info s) = .fault .cpuStopped

/-- PANIC is no fault: under either policy, and at the panic address too, it writes LRAP with the address after it,
goes to PANIC_ADDR and emits nothing, where a trap that enters the handler writes `start` (60_exceptions.md R222,
42_control.md R177). -/
def Obligations.PanicIsNoFault : Prop :=
  ∀ (f : Bool) (m : ImplicitMode) (s : State),
    exec (.panic f m) s = .next { s with lrap := s.pc, pc := s.cfg.panicAddr } ∧
    ∀ (c : TrapCause) (info : Info), s.cfg.policy = .trap → s.start ≠ s.cfg.panicAddr →
      (raiseTrap c info s).lrap = s.start

/-- The cause codes are those of the table, and no two causes share one (60_exceptions.md R200). -/
def Obligations.CauseCodesAreDistinct : Prop :=
  (∀ c d : StopCause, c.code = d.code → c = d) ∧
  [StopCause.none, .trap .fetchViolation, .trap .readViolation, .trap .writeViolation, .trap .capabilityViolation,
    .trap .divideByZero, .fatal .invalidOpcode, .fatal .illegalAddressMode, .fatal .doubleFault, .halt].map
      StopCause.code = [0, 1, 2, 3, 4, 5, 16, 17, 18, 32]

/-- An instruction whose registers fail the capability check traps with the first failing register, its reads before
its writes, and does nothing else (10_state.md R27; 60_exceptions.md R210). -/
def Obligations.CapabilityCheckComesFirst : Prop :=
  ∀ (i : Instr) (s : State),
    (∀ before r after, (checkedReads s.cfg i).map CapReg.reg8 = before ++ r :: after →
      (∀ q ∈ before, (capOf s.cfg.regCaps q).readable = true) →
      (capOf s.cfg.regCaps r).readable = false →
      exec i s = .next (raiseTrap .capabilityViolation (.register r) s)) ∧
    (∀ before r after, checkedWrites i = before ++ r :: after →
      (∀ q ∈ (checkedReads s.cfg i).map CapReg.reg8, (capOf s.cfg.regCaps q).readable = true) →
      (∀ q ∈ before, (capOf s.cfg.regCaps q).writable = true) →
      (capOf s.cfg.regCaps r).writable = false →
      exec i s = .next (raiseTrap .capabilityViolation (.register r) s))

/-! ### Memory -/

/-- The permission test: an access is permitted exactly when no rule whose bounds, both inclusive, hold the address has
the flag of its mode set (20_memory.md R54). -/
def Obligations.PermissionTest : Prop :=
  ∀ (regions : List RegionRule) (addr : Addr) (mode : AccessMode),
    permitted regions addr mode = true ↔
      ¬ ∃ rule ∈ regions, rule.lowBound.toNat ≤ addr.toNat ∧ addr.toNat ≤ rule.highBound.toNat ∧
        (match mode with
          | .read => rule.disallowRead
          | .write => rule.disallowWrite
          | .exec => rule.disallowExecute) = true

/-- The permission test depends neither on the order of the rules nor on duplicates; an address no rule covers, and
every address under no rules, is permitted in every mode; a rule with inverted bounds covers nothing
(20_memory.md R53, R55, which the spec derives from R54). -/
def Obligations.PermissionIgnoresOrder : Prop :=
  (∀ (r1 r2 : List RegionRule) (addr : Addr) (mode : AccessMode), (∀ rule, rule ∈ r1 ↔ rule ∈ r2) →
    permitted r1 addr mode = permitted r2 addr mode) ∧
  (∀ (regions : List RegionRule) (addr : Addr) (mode : AccessMode),
    (∀ rule ∈ regions, covers rule addr = false) → permitted regions addr mode = true) ∧
  (∀ (addr : Addr) (mode : AccessMode), permitted [] addr mode = true) ∧
  ∀ (rule : RegionRule) (addr : Addr), rule.highBound.toNat < rule.lowBound.toNat → covers rule addr = false

/-- The checked write: permitted, it stores the byte and leaves every other byte and the rest of the state; denied, it
stores nothing (20_memory.md R58). -/
def Obligations.CheckedWriteStoresOrDenies : Prop :=
  ∀ (s : State) (addr : Addr) (v : Byte) (mode : AccessMode),
    (permitted s.cfg.regions addr mode = false → memWrite s addr v mode = none) ∧
    (permitted s.cfg.regions addr mode = true →
      ∃ t, memWrite s addr v mode = some t ∧ t.byteAt addr = v ∧
        (∀ other, other ≠ addr → t.byteAt other = s.byteAt other) ∧ t = { s with mem := t.mem })

/-- A stored byte is what the next fetch of its address, and the next load from it, gets (20_memory.md R67, R71). -/
def Obligations.StoreIsSeenByFetchAndLoad : Prop :=
  ∀ (s t : State) (addr : Addr) (v : Byte), memWrite s addr v .write = some t →
    (permitted s.cfg.regions addr .exec = true →
      fetchByte { t with pc := addr } = .ok (v, { t with pc := addr + 1#16 })) ∧
    (permitted s.cfg.regions addr .read = true → memRead t addr .read = some v)

/-! ### Loads and stores -/

/-- A constant load writes its register and nothing else, for each of LDA, LDB, LDL and LDH when that register is
writable (40_load_store.md R120, R121, R127, R128). -/
def Obligations.ConstantLoadsComplete : Prop :=
  ∀ (f : Bool) (imm : Byte) (s : State),
    (s.cfg.regCaps.a.writable = true → exec (.ldaConst f imm) s = .next { s with a := imm }) ∧
    (s.cfg.regCaps.b.writable = true → exec (.ldbConst f imm) s = .next { s with b := imm }) ∧
    (s.cfg.regCaps.l.writable = true → exec (.ldlConst f imm) s = .next { s with l := imm }) ∧
    (s.cfg.regCaps.h.writable = true → exec (.ldhConst f imm) s = .next { s with h := imm })

/-- A memory load writes its register with the byte at its address and nothing else, when the register is writable and
the address may be read (40_load_store.md R120, R121, R127, R128). -/
def Obligations.MemoryLoadsComplete : Prop :=
  ∀ (f : Bool) (addr : Addr) (s : State), permitted s.cfg.regions addr .read = true →
    (s.cfg.regCaps.a.writable = true → exec (.ldaMem f addr) s = .next { s with a := s.byteAt addr }) ∧
    (s.cfg.regCaps.b.writable = true → exec (.ldbMem f addr) s = .next { s with b := s.byteAt addr }) ∧
    (s.cfg.regCaps.l.writable = true → exec (.ldlMem f addr) s = .next { s with l := s.byteAt addr }) ∧
    (s.cfg.regCaps.h.writable = true → exec (.ldhMem f addr) s = .next { s with h := s.byteAt addr })

/-- A load from an address that may not be read traps with READ_VIOLATION and the address, the register kept
(40_load_store.md R120, R121, R127 to R129). -/
def Obligations.DeniedLoadsTrap : Prop :=
  ∀ (f : Bool) (addr : Addr) (s : State), permitted s.cfg.regions addr .read = false →
    (s.cfg.regCaps.a.writable = true →
      exec (.ldaMem f addr) s = .next (raiseTrap .readViolation (.address addr) s)) ∧
    (s.cfg.regCaps.b.writable = true →
      exec (.ldbMem f addr) s = .next (raiseTrap .readViolation (.address addr) s)) ∧
    (s.cfg.regCaps.l.writable = true →
      exec (.ldlMem f addr) s = .next (raiseTrap .readViolation (.address addr) s)) ∧
    (s.cfg.regCaps.h.writable = true →
      exec (.ldhMem f addr) s = .next (raiseTrap .readViolation (.address addr) s))

/-- STA stores A; STB and STC store A, or B and C when STORE_BY_NAME. The byte lands at the operand's address, every
other byte and every register is unchanged (40_load_store.md R122 to R125). -/
def Obligations.StoresComplete : Prop :=
  ∀ (f : Bool) (addr : Addr) (s : State), permitted s.cfg.regions addr .write = true →
    (s.cfg.regCaps.a.readable = true → ∃ t, exec (.sta f addr) s = .next t ∧ t.byteAt addr = s.a ∧
      (∀ other, other ≠ addr → t.byteAt other = s.byteAt other) ∧ t = { s with mem := t.mem }) ∧
    (s.cfg.storeByName = false → s.cfg.regCaps.a.readable = true →
      (∃ t, exec (.stb f addr) s = .next t ∧ t.byteAt addr = s.a ∧
        (∀ other, other ≠ addr → t.byteAt other = s.byteAt other) ∧ t = { s with mem := t.mem }) ∧
      ∃ t, exec (.stc f addr) s = .next t ∧ t.byteAt addr = s.a ∧
        (∀ other, other ≠ addr → t.byteAt other = s.byteAt other) ∧ t = { s with mem := t.mem }) ∧
    (s.cfg.storeByName = true → s.cfg.regCaps.b.readable = true →
      ∃ t, exec (.stb f addr) s = .next t ∧ t.byteAt addr = s.b ∧
        (∀ other, other ≠ addr → t.byteAt other = s.byteAt other) ∧ t = { s with mem := t.mem }) ∧
    (s.cfg.storeByName = true → s.cfg.regCaps.c.readable = true →
      ∃ t, exec (.stc f addr) s = .next t ∧ t.byteAt addr = s.c ∧
        (∀ other, other ≠ addr → t.byteAt other = s.byteAt other) ∧ t = { s with mem := t.mem })

/-- A store to an address that may not be written traps with WRITE_VIOLATION and the address, and memory is unchanged. Only
the register it stores need be readable: A for STA, A for STB and STC when not STORE_BY_NAME, else B and C
(40_load_store.md R122 to R125, R129; 20_memory.md R58). -/
def Obligations.DeniedStoresTrap : Prop :=
  ∀ (f : Bool) (addr : Addr) (s : State), permitted s.cfg.regions addr .write = false →
    (s.cfg.regCaps.a.readable = true →
      exec (.sta f addr) s = .next (raiseTrap .writeViolation (.address addr) s)) ∧
    (s.cfg.storeByName = false → s.cfg.regCaps.a.readable = true →
      exec (.stb f addr) s = .next (raiseTrap .writeViolation (.address addr) s) ∧
      exec (.stc f addr) s = .next (raiseTrap .writeViolation (.address addr) s)) ∧
    (s.cfg.storeByName = true → s.cfg.regCaps.b.readable = true →
      exec (.stb f addr) s = .next (raiseTrap .writeViolation (.address addr) s)) ∧
    (s.cfg.storeByName = true → s.cfg.regCaps.c.readable = true →
      exec (.stc f addr) s = .next (raiseTrap .writeViolation (.address addr) s)) ∧
    (raiseTrap .writeViolation (.address addr) s).mem = s.mem

/-! ### Arithmetic and logic -/

/-- ABC adds and SUB subtracts modulo 256, into C and nothing else (41_arith_logic.md R140, R147, R148). -/
def Obligations.AddAndSubtractComplete : Prop :=
  ∀ (m : ImplicitMode) (s : State), s.cfg.regCaps.a.readable = true → s.cfg.regCaps.b.readable = true →
    s.cfg.regCaps.c.writable = true →
    (∃ v : Byte, exec (.abc m) s = .next { s with c := v } ∧ v.toNat = (s.a.toNat + s.b.toNat) % 256) ∧
    ∃ v : Byte, exec (.sub m) s = .next { s with c := v } ∧
      (v.toNat : Int) = ((s.a.toNat : Int) - (s.b.toNat : Int)) % 256

/-- MUL keeps the low 8 bits of the product; DIV by a B that is not 0 gives the quotient rounded down; both write C and
nothing else (41_arith_logic.md R141, R147, R148). -/
def Obligations.MultiplyAndDivideComplete : Prop :=
  ∀ (m : ImplicitMode) (s : State), s.cfg.regCaps.a.readable = true → s.cfg.regCaps.b.readable = true →
    s.cfg.regCaps.c.writable = true →
    (∃ v : Byte, exec (.mul m) s = .next { s with c := v } ∧ v.toNat = (s.a.toNat * s.b.toNat) % 256) ∧
    (s.b ≠ 0x00#8 →
      ∃ v : Byte, exec (.div m) s = .next { s with c := v } ∧
        v.toNat * s.b.toNat ≤ s.a.toNat ∧ s.a.toNat < (v.toNat + 1) * s.b.toNat)

/-- DIV with B = 0 traps with DIVIDE_BY_ZERO and writes no register, after its capability check
(41_arith_logic.md R141; 60_exceptions.md R210). -/
def Obligations.DivideByZeroTraps : Prop :=
  ∀ (m : ImplicitMode) (s : State), s.cfg.regCaps.a.readable = true → s.cfg.regCaps.b.readable = true →
    s.cfg.regCaps.c.writable = true → s.b = 0x00#8 →
    exec (.div m) s = .next (raiseTrap .divideByZero .none s) ∧ (raiseTrap .divideByZero .none s).c = s.c

/-- CMP writes 1 or 0 into C and nothing else: for equality with flag 0, for unsigned less-than with flag 1
(41_arith_logic.md R142, R148). -/
def Obligations.ComparesComplete : Prop :=
  ∀ (m : ImplicitMode) (s : State), s.cfg.regCaps.a.readable = true → s.cfg.regCaps.b.readable = true →
    s.cfg.regCaps.c.writable = true →
    (s.a.toNat = s.b.toNat → exec (.cmpEq m) s = .next { s with c := 0x01#8 }) ∧
    (s.a.toNat ≠ s.b.toNat → exec (.cmpEq m) s = .next { s with c := 0x00#8 }) ∧
    (s.a.toNat < s.b.toNat → exec (.cmpLt m) s = .next { s with c := 0x01#8 }) ∧
    (s.b.toNat ≤ s.a.toNat → exec (.cmpLt m) s = .next { s with c := 0x00#8 })

/-- CPL writes into C, and nothing else, 255 less A with flag 0 and 255 less B with flag 1; only the register it
complements need be readable (41_arith_logic.md R143, R148). -/
def Obligations.ComplementsComplete : Prop :=
  ∀ (m : ImplicitMode) (s : State), s.cfg.regCaps.c.writable = true →
    (s.cfg.regCaps.a.readable = true →
      ∃ v : Byte, exec (.cplA m) s = .next { s with c := v } ∧ v.toNat = 255 - s.a.toNat) ∧
    (s.cfg.regCaps.b.readable = true →
      ∃ v : Byte, exec (.cplB m) s = .next { s with c := v } ∧ v.toNat = 255 - s.b.toNat)

/-- AND, XOR and OR combine A and B bit by bit into C and change nothing else
(41_arith_logic.md R144 to R146, R148). -/
def Obligations.BitwiseOpsComplete : Prop :=
  ∀ (f : Bool) (m : ImplicitMode) (s : State), s.cfg.regCaps.a.readable = true →
    s.cfg.regCaps.b.readable = true → s.cfg.regCaps.c.writable = true →
    (∃ v : Byte, exec (.andAB f m) s = .next { s with c := v } ∧
      ∀ k, v.getLsbD k = (s.a.getLsbD k && s.b.getLsbD k)) ∧
    (∃ v : Byte, exec (.xorAB f m) s = .next { s with c := v } ∧
      ∀ k, v.getLsbD k = (s.a.getLsbD k != s.b.getLsbD k)) ∧
    ∃ v : Byte, exec (.orAB f m) s = .next { s with c := v } ∧
      ∀ k, v.getLsbD k = (s.a.getLsbD k || s.b.getLsbD k)

/-- ZERO clears A, B and C, CLD clears L and H, and nothing else changes (41_arith_logic.md R149, R150). -/
def Obligations.ClearingComplete : Prop :=
  ∀ (f : Bool) (m : ImplicitMode) (s : State),
    (s.cfg.regCaps.a.writable = true → s.cfg.regCaps.b.writable = true → s.cfg.regCaps.c.writable = true →
      exec (.zero f m) s = .next { s with a := 0x00#8, b := 0x00#8, c := 0x00#8 }) ∧
    (s.cfg.regCaps.l.writable = true → s.cfg.regCaps.h.writable = true →
      exec (.cld f m) s = .next { s with l := 0x00#8, h := 0x00#8 })

/-! ### Control and system -/

/-- JMP goes to its address; JZ goes there when C is 0 and JNZ when it is not, and otherwise the PC stays at the next
instruction; nothing else changes (42_control.md R170 to R173, R175). -/
def Obligations.JumpsComplete : Prop :=
  ∀ (f : Bool) (addr : Addr) (s : State),
    exec (.jmp f addr) s = .next { s with pc := addr } ∧
    (s.cfg.regCaps.c.readable = true → s.c = 0x00#8 →
      exec (.jz f addr) s = .next { s with pc := addr } ∧ exec (.jnz f addr) s = .next s) ∧
    (s.cfg.regCaps.c.readable = true → s.c ≠ 0x00#8 →
      exec (.jz f addr) s = .next s ∧ exec (.jnz f addr) s = .next { s with pc := addr })

/-- A jump that is taken, JMP, JZ or JNZ, completes also when its target may not be fetched. The next step traps there with
the target as `start` and as the denied address: a stop under policy HALT, a double fault when the target is the panic
address, and otherwise the handler entered with LRAP the target (42_control.md R170 to R173; 30_encoding.md R86;
60_exceptions.md R205, R208). -/
def Obligations.JumpTargetIsCheckedAtTheNextFetch : Prop :=
  ∀ (f : Bool) (addr : Addr) (s : State), s.status = .running → permitted s.cfg.regions addr .exec = false →
    exec (.jmp f addr) s = .next { s with pc := addr } ∧
    (s.cfg.regCaps.c.readable = true → s.c = 0x00#8 → exec (.jz f addr) s = .next { s with pc := addr }) ∧
    (s.cfg.regCaps.c.readable = true → s.c ≠ 0x00#8 → exec (.jnz f addr) s = .next { s with pc := addr }) ∧
    (s.cfg.policy = .halt →
      step { s with pc := addr } = .next { s with
        pc := addr, start := addr, status := .fatal, cause := .trap .fetchViolation,
        events := s.events ++ [⟨.trap .fetchViolation, .address addr, addr⟩] }) ∧
    (s.cfg.policy = .trap → addr = s.cfg.panicAddr →
      step { s with pc := addr } = .next { s with
        pc := addr, start := addr, status := .fatal, cause := .fatal .doubleFault,
        events := s.events ++ [⟨.fatal .doubleFault, .inner .fetchViolation, addr⟩] }) ∧
    (s.cfg.policy = .trap → addr ≠ s.cfg.panicAddr →
      step { s with pc := addr } = .next { s with
        pc := s.cfg.panicAddr, start := addr, lrap := addr,
        events := s.events ++ [⟨.trap .fetchViolation, .address addr, addr⟩] })

/-- HLT stops the CPU with the PC at the next address, everything else kept and the stop on the event output, and no step
follows (42_control.md R176; 60_exceptions.md R203, R221). That it emits a record is the model's reading of R203, log
entry 5. -/
def Obligations.HaltCompletes : Prop :=
  ∀ (f : Bool) (m : ImplicitMode) (s : State),
    exec (.hlt f m) s = .next { s with
      status := .halted, cause := .halt, events := s.events ++ [⟨.halt, .none, s.start⟩] } ∧
    step { s with
      status := .halted, cause := .halt, events := s.events ++ [⟨.halt, .none, s.start⟩] } = .fault .cpuStopped

/-- NOP and SYSCALL change nothing (43_system.md R190, R191). -/
def Obligations.NoOpsComplete : Prop :=
  ∀ (f : Bool) (m : ImplicitMode) (s : State),
    exec (.nop f m) s = .next s ∧ exec (.syscall f m) s = .next s

/-- MBNKROM writes 0 and MBNKRAM 1 into M and nothing else, when M is writable (43_system.md R192, R193). -/
def Obligations.BankSelectsComplete : Prop :=
  ∀ (f : Bool) (m : ImplicitMode) (s : State), s.cfg.regCaps.m.writable = true →
    exec (.mbnkrom f m) s = .next { s with m := 0#1 } ∧ exec (.mbnkram f m) s = .next { s with m := 1#1 }

/-! ### Boot -/

/-- A boot that succeeds leaves the reset state: registers 0, PC at INIT_ADDR, RUNNING, the image at 0 and up, 0x00
after it (70_reset_and_hazards.md R245, R246; 10_state.md R35). -/
def Obligations.BootLeavesResetState : Prop :=
  ∀ (cfg : Config) (file : List Byte) (s : State), boot cfg file = .ok s →
    ∃ rom, readRom cfg file = .ok rom ∧
      s.a = 0x00#8 ∧ s.b = 0x00#8 ∧ s.c = 0x00#8 ∧ s.l = 0x00#8 ∧ s.h = 0x00#8 ∧ s.m = 0#1 ∧
      s.lrap = 0x0000#16 ∧ s.pc = rom.initAddr ∧ s.status = .running ∧ s.cause = .none ∧
      s.cfg = { cfg with initAddr := rom.initAddr, panicAddr := rom.panicAddr, endAddr := rom.endAddr } ∧
      ∀ addr : Addr, s.byteAt addr = rom.stream.getD addr.toNat 0x00#8

/-- A file the writer writes boots, and the loader reads back the contents the writer was given, when the table is
admitted and no rule denies the image's bytes (70_reset_and_hazards.md R240 to R245, R249). The order of the size check
among the loader's checks is the model's, log entry 11. -/
def Obligations.WrittenRomBoots : Prop :=
  ∀ (cfg : Config) (rom : Rom) (file : List Byte), cfg.isaTable.admitted = true →
    writeRom cfg rom = .ok file →
    (∀ addr : Addr, addr.toNat < rom.stream.length → permitted cfg.regions addr .write = true) →
    readRom cfg file = .ok rom ∧ ∃ s, boot cfg file = .ok s

/-- A region rule that denies a write to any byte of the image fails the boot
(70_reset_and_hazards.md R245). -/
def Obligations.DeniedImageWriteFailsBoot : Prop :=
  ∀ (cfg : Config) (file : List Byte) (rom : Rom) (addr : Addr), cfg.isaTable.admitted = true →
    readRom cfg file = .ok rom → addr.toNat < rom.stream.length →
    permitted cfg.regions addr .write = false →
    boot cfg file = .error .memoryProtectionViolation

/-- The loader rejects a file that is too short, has the wrong magic, declares a size that is below 6 or disagrees with
its length, or, when hashes are checked and its size is admitted, carries another hash
(70_reset_and_hazards.md R242, R244). -/
def Obligations.MalformedRomsAreRejected : Prop :=
  ∀ (cfg : Config) (file : List Byte),
    (file.length < 17 ∨ file.take 6 ≠ [0x2E#8, 0x53#8, 0x45#8, 0x42#8, 0x49#8, 0x53#8] ∨
        (field16 file 9).toNat < 6 ∨ file.length ≠ 11 + (field16 file 9).toNat + 32 ∨
        (cfg.verifyHash = true ∧ (field16 file 9).toNat ≤ cfg.maxRomSize.toNat ∧
          sha256 ((file.drop 11).take (field16 file 9).toNat) ≠ file.drop (11 + (field16 file 9).toNat))) →
      readRom cfg file = .error .malformedRom

/-! ### Assembler -/

/-- SUB assembles to ABC with the flag set and DIV to MUL with it; CMP and CPL take their flag from their operand; the
spec's literals have their values (30_encoding.md R110 to R112, R114; 95_test_vectors.md E2). A sanity statement. -/
def Obligations.MnemonicsAssemble : Prop :=
  assembleTokens ["sub".toList] = .ok (.sub .register) ∧
  assembleTokens ["DIV".toList] = .ok (.div .register) ∧
  assembleTokens ["CMP".toList, "0".toList] = .ok (.cmpEq .register) ∧
  assembleTokens ["CPL".toList, "1".toList] = .ok (.cplB .register) ∧
  assembleTokens ["LDA".toList, "0x1F".toList] = .ok (.ldaConst false 31#8) ∧
  assembleTokens ["LDA".toList, "017".toList] = .ok (.ldaConst false 15#8) ∧
  assembleTokens ["LDA".toList, "$0b101".toList] = .ok (.ldaMem false 5#16) ∧
  assembleTokens ["STA".toList, "300".toList] = .ok (.sta false 300#16) ∧
  assembleTokens ["LDA".toList, "300".toList] = .error .invalidLongRegister ∧
  assembleTokens ["HALT".toList] = .error .invalidOpcode
end

