-- ==== Sys2Proof/Laws/Codec.lean ====
section
/-! SUPPORT. The fields of control byte 0, the operand bytes and the stages of the decoder, each with what the
encoder writes there (30_encoding.md R81 to R94). -/

namespace Sys2Proof

/-! ### Two bytes and a 16-bit value -/

theorem getLsbD_pair (hi lo : Byte) (i : Nat) :
    (pair hi lo).getLsbD i = if i < 8 then lo.getLsbD i else hi.getLsbD (i - 8) :=
  BitVec.getLsbD_append

@[simp] theorem highByte_pair (hi lo : Byte) : highByte (pair hi lo) = hi := by
  apply BitVec.eq_of_getLsbD_eq
  intro i h
  simp only [highByte, BitVec.getLsbD_extractLsb', getLsbD_pair]
  simp [h]

@[simp] theorem lowByte_pair (hi lo : Byte) : lowByte (pair hi lo) = lo := by
  apply BitVec.eq_of_getLsbD_eq
  intro i h
  simp only [lowByte, BitVec.getLsbD_extractLsb', getLsbD_pair]
  simp [h]

@[simp] theorem pair_highByte_lowByte (v : Addr) : pair (highByte v) (lowByte v) = v := by
  apply BitVec.eq_of_getLsbD_eq
  intro i hi
  simp only [getLsbD_pair, highByte, lowByte, BitVec.getLsbD_extractLsb']
  split <;> rename_i h
  · simp [h]
  · rw [show 8 + (i - 8) = i by omega]
    simp [show i - 8 < 8 by omega]

/-! ### The fields of control byte 0 -/

theorem getLsbD_controlByte (sc : SizeClass) (f : Bool) (am : AddressMode) (frag0 : Byte) (i : Nat) :
    (controlByte sc f am frag0).getLsbD i =
      if i < 3 then frag0.getLsbD i
      else if i < 5 then am.bits.getLsbD (i - 3)
      else if i < 6 then (i == 5) && f
      else sc.bits.getLsbD (i - 6) := by
  have h : (controlByte sc f am frag0).getLsbD i = _ :=
    BitVec.getLsbD_append (x := sc.bits ++ BitVec.ofBool f ++ am.bits) (y := frag0.extractLsb' 0 3)
  rw [h, BitVec.getLsbD_append, BitVec.getLsbD_append]
  split
  · simp [*]
  split
  · simp [*, show i < 5 by omega]
  split
  · simp [show i = 5 by omega]
  · simp [show ¬ i < 5 by omega, show ¬ i < 6 by omega, Nat.sub_sub]

theorem extract_sizeClass (sc : SizeClass) (f : Bool) (am : AddressMode) (frag0 : Byte) :
    (controlByte sc f am frag0).extractLsb' 6 2 = sc.bits := by
  apply BitVec.eq_of_getLsbD_eq
  intro i h
  simp only [BitVec.getLsbD_extractLsb', getLsbD_controlByte]
  simp [h, show ¬ 6 + i < 3 by omega, show ¬ 6 + i < 5 by omega]

theorem extract_mode (sc : SizeClass) (f : Bool) (am : AddressMode) (frag0 : Byte) :
    (controlByte sc f am frag0).extractLsb' 3 2 = am.bits := by
  apply BitVec.eq_of_getLsbD_eq
  intro i h
  simp only [BitVec.getLsbD_extractLsb', getLsbD_controlByte]
  simp [h, show 3 + i < 5 by omega]

@[simp] theorem sizeClassOf_controlByte (sc : SizeClass) (f : Bool) (am : AddressMode) (frag0 : Byte) :
    sizeClassOf (controlByte sc f am frag0) = some sc := by
  cases sc <;> simp [sizeClassOf, extract_sizeClass, SizeClass.bits]

@[simp] theorem addressModeOf_controlByte (sc : SizeClass) (f : Bool) (am : AddressMode) (frag0 : Byte) :
    addressModeOf (controlByte sc f am frag0) = am := by
  cases am <;> simp [addressModeOf, extract_mode, AddressMode.bits]

@[simp] theorem flagOf_controlByte (sc : SizeClass) (f : Bool) (am : AddressMode) (frag0 : Byte) :
    flagOf (controlByte sc f am frag0) = f := by
  rw [flagOf, getLsbD_controlByte]; simp

theorem frag0Of_controlByte (sc : SizeClass) (f : Bool) (am : AddressMode) (frag0 : Byte)
    (h : frag0.toNat < 8) : frag0Of (controlByte sc f am frag0) = frag0 := by
  have e : (controlByte sc f am frag0).extractLsb' 0 3 = frag0.extractLsb' 0 3 := by
    apply BitVec.eq_of_getLsbD_eq
    intro i hi
    simp only [BitVec.getLsbD_extractLsb', getLsbD_controlByte]
    simp [hi]
  rw [frag0Of, e]
  apply BitVec.eq_of_toNat_eq
  simp
  omega

theorem frag0Of_lt (b0 : Byte) : (frag0Of b0).toNat < 8 := by
  simp [frag0Of]
  omega

/-- A control byte whose size class is not 0 is written back by its own fields. -/
theorem controlByte_fields (b0 : Byte) (sc : SizeClass) (h : sizeClassOf b0 = some sc) :
    controlByte sc (flagOf b0) (addressModeOf b0) (frag0Of b0) = b0 := by
  have key : ∀ b : Byte, (sizeClassOf b).map
      (fun k => controlByte k (flagOf b) (addressModeOf b) (frag0Of b)) =
        (sizeClassOf b).map (fun _ => b) := by decide +kernel
  have := key b0
  rw [h] at this
  simpa using this

/-! ### Fragments and operands -/

theorem takeFragments_append (frags bs : List Byte) :
    takeFragments frags.length (frags ++ bs) = some (frags, bs) := by
  induction frags with
  | nil => rfl
  | cons b frags ih => simp [takeFragments, ih]

theorem takeFragments_eq_some {n : Nat} {bs frags rest : List Byte}
    (h : takeFragments n bs = some (frags, rest)) : bs = frags ++ rest ∧ frags.length = n := by
  induction n generalizing bs frags rest with
  | zero => simp only [takeFragments, Option.some.injEq, Prod.mk.injEq] at h; simp [← h.1, ← h.2]
  | succ n ih =>
    cases bs with
    | nil => simp [takeFragments] at h
    | cons b bs =>
      simp only [takeFragments, Option.map_eq_some_iff, Prod.mk.injEq] at h
      obtain ⟨⟨frags', rest'⟩, h', rfl, rfl⟩ := h
      obtain ⟨rfl, rfl⟩ := ih h'
      simp

theorem takeOperand_bytes (o : Operand) (bs : List Byte) :
    takeOperand o.mode (o.bytes ++ bs) = some (o, bs) := by
  rcases o with ⟨_ | _⟩ | _ | _ <;> simp [takeOperand, Operand.mode, Operand.bytes, ImplicitMode.mode]

theorem takeOperand_eq_some {am : AddressMode} {bs rest : List Byte} {o : Operand}
    (h : takeOperand am bs = some (o, rest)) : bs = o.bytes ++ rest ∧ o.mode = am := by
  unfold takeOperand at h
  split at h <;>
    simp only [Option.some.injEq, Prod.mk.injEq, reduceCtorEq] at h <;>
    obtain ⟨rfl, rfl⟩ := h <;>
    simp [Operand.bytes, Operand.mode, ImplicitMode.mode]

@[simp] theorem Operand.length_bytes (o : Operand) : o.bytes.length = o.mode.operandBytes := by
  rcases o with ⟨_ | _⟩ | _ | _ <;> rfl

/-! ### Opcodes -/

/-- An instruction is built back from its opcode, flag and operand. -/
theorem instrOf_parts (i : Instr) : instrOf i.opcode i.flag i.operand = some i := by
  cases i <;> rfl

/-- What is built has the parts it was built from. -/
theorem instrOf_eq_some {op : Opcode} {f : Bool} {o : Operand} {i : Instr}
    (h : instrOf op f o = some i) : i.opcode = op ∧ i.flag = f ∧ i.operand = o := by
  cases op <;> rcases o with m | imm | addr <;> cases f <;> simp [instrOf] at h <;> subst h <;>
    exact ⟨rfl, rfl, rfl⟩

/-- An instruction is built exactly for the legal modes of 30_encoding.md R94. -/
theorem instrOf_isSome (op : Opcode) (f : Bool) (o : Operand) :
    (instrOf op f o).isSome = true ↔ o.mode ∈ op.legalModes := by
  cases op <;> rcases o with ⟨_ | _⟩ | imm | addr <;>
    simp [instrOf, Opcode.legalModes, Operand.mode, ImplicitMode.mode]

/-! ### Admitted tables -/

theorem Opcode.mem_all (op : Opcode) : op ∈ Opcode.all := by cases op <;> decide

theorem IsaEntry.fits_iff (e : IsaEntry) :
    e.fits = true ↔ ∃ f0 fs, e.frags = f0 :: fs ∧ f0.toNat < 8 ∧ fs.length + 1 = e.sizeClass.controlBytes := by
  unfold IsaEntry.fits
  cases h : e.frags with
  | nil => simp
  | cons f0 fs => simp [and_comm]

theorem IsaTable.admitted_iff (t : IsaTable) :
    t.admitted = true ↔ t.coversOpcodes = true ∧ (∀ e ∈ t, e.fits = true) ∧ t.encodingsDistinct = true := by
  simp [IsaTable.admitted, and_assoc]

/-- Under an admitted table every opcode has an entry, which is its only one. -/
theorem IsaTable.entryOf_of_admitted {t : IsaTable} (h : t.admitted = true) (op : Opcode) :
    ∃ e, t.entryOf op = some e ∧ e ∈ t ∧ e.op = op ∧ e.fits = true ∧
      ∀ e' ∈ t, e'.op = op → e' = e := by
  obtain ⟨hc, hf, -⟩ := (IsaTable.admitted_iff t).1 h
  have h1 : (t.filter (fun e => e.op == op)).length = 1 := by
    simpa using List.all_eq_true.1 hc op op.mem_all
  obtain ⟨e, he⟩ := List.length_eq_one_iff.1 h1
  have hmem : ∀ e', e' ∈ t ∧ e'.op = op ↔ e' = e := by
    intro e'
    have := List.mem_filter (p := fun e : IsaEntry => e.op == op) (x := e') (as := t)
    rw [he] at this
    simpa using this.symm
  obtain ⟨hm, ho⟩ := (hmem e).2 rfl
  refine ⟨e, ?_, hm, ho, hf e hm, fun e' hm' ho' => (hmem e').1 ⟨hm', ho'⟩⟩
  unfold IsaTable.entryOf
  cases hfd : t.find? (fun e => e.op == op) with
  | none => exact absurd (List.find?_eq_none.1 hfd e hm) (by simp [ho])
  | some e' =>
    have h1 := List.mem_of_find?_eq_some hfd
    have h2 : (e'.op == op) = true := List.find?_some (p := fun e : IsaEntry => e.op == op) hfd
    rw [(hmem e').1 ⟨h1, by simpa using h2⟩]

theorem IsaTable.encodingsDistinct_inj {t : IsaTable} (h : t.encodingsDistinct = true) {e e' : IsaEntry}
    (he : e ∈ t) (he' : e' ∈ t) (hs : e.sizeClass = e'.sizeClass) (hf : e.frags = e'.frags) : e = e' := by
  induction t with
  | nil => simp at he
  | cons e0 t ih =>
    simp only [IsaTable.encodingsDistinct, Bool.and_eq_true, List.all_eq_true, Bool.not_eq_true',
      Bool.and_eq_false_iff, beq_eq_false_iff_ne] at h
    rcases List.mem_cons.1 he with rfl | hm <;> rcases List.mem_cons.1 he' with rfl | hm'
    · rfl
    · rcases h.1 e' hm' with h1 | h1
      · exact absurd hs.symm h1
      · exact absurd hf.symm h1
    · rcases h.1 e hm with h1 | h1
      · exact absurd hs h1
      · exact absurd hf h1
    · exact ih h.2 hm hm'

/-- The lookup in an admitted table finds each entry by its class and fragments. -/
theorem lookup_of_mem {t : IsaTable} (h : t.admitted = true) {e : IsaEntry} (he : e ∈ t) :
    lookup t e.sizeClass e.frags = some e.op := by
  obtain ⟨-, -, hd⟩ := (IsaTable.admitted_iff t).1 h
  unfold lookup
  cases hfd : t.find? (fun e' => e'.sizeClass == e.sizeClass && e'.frags == e.frags) with
  | none => exact absurd (List.find?_eq_none.1 hfd e he) (by simp)
  | some e' =>
    have h1 := List.mem_of_find?_eq_some hfd
    have h2 := List.find?_some (p := fun e' : IsaEntry => e'.sizeClass == e.sizeClass && e'.frags == e.frags) hfd
    simp only [Bool.and_eq_true, beq_iff_eq] at h2
    rw [IsaTable.encodingsDistinct_inj hd h1 he h2.1 h2.2]
    rfl

/-- What the lookup finds is an entry of the table. -/
theorem lookup_eq_some {t : IsaTable} {sc : SizeClass} {frags : List Byte} {op : Opcode}
    (h : lookup t sc frags = some op) : ∃ e ∈ t, e.op = op ∧ e.sizeClass = sc ∧ e.frags = frags := by
  unfold lookup at h
  obtain ⟨e, he, ho⟩ := Option.map_eq_some_iff.1 h
  have h1 := List.mem_of_find?_eq_some he
  have h2 := List.find?_some (p := fun e' : IsaEntry => e'.sizeClass == sc && e'.frags == frags) he
  simp only [Bool.and_eq_true, beq_iff_eq] at h2
  exact ⟨e, h1, ho, h2.1, h2.2⟩

end Sys2Proof
end

