-- ==== Sys2Proof/Laws/State.lean ====
section
/-! SUPPORT. One lemma per field per update of State, so that no later proof unfolds an update. -/

namespace Sys2Proof.Machine

@[simp] theorem State.setM_a (s : State) (v : Bit) : (s.setM v).a = s.a := rfl
@[simp] theorem State.setM_b (s : State) (v : Bit) : (s.setM v).b = s.b := rfl
@[simp] theorem State.setM_c (s : State) (v : Bit) : (s.setM v).c = s.c := rfl
@[simp] theorem State.setM_l (s : State) (v : Bit) : (s.setM v).l = s.l := rfl
@[simp] theorem State.setM_h (s : State) (v : Bit) : (s.setM v).h = s.h := rfl
@[simp] theorem State.setM_m (s : State) (v : Bit) : (s.setM v).m = v := rfl
@[simp] theorem State.setM_lrap (s : State) (v : Bit) : (s.setM v).lrap = s.lrap := rfl
@[simp] theorem State.setM_pc (s : State) (v : Bit) : (s.setM v).pc = s.pc := rfl
@[simp] theorem State.setM_mem (s : State) (v : Bit) : (s.setM v).mem = s.mem := rfl
@[simp] theorem State.setM_status (s : State) (v : Bit) : (s.setM v).status = s.status := rfl
@[simp] theorem State.setM_cause (s : State) (v : Bit) : (s.setM v).cause = s.cause := rfl
@[simp] theorem State.setM_events (s : State) (v : Bit) : (s.setM v).events = s.events := rfl
@[simp] theorem State.setM_start (s : State) (v : Bit) : (s.setM v).start = s.start := rfl
@[simp] theorem State.setM_cfg (s : State) (v : Bit) : (s.setM v).cfg = s.cfg := rfl

@[simp] theorem State.setLrap_a (s : State) (v : Addr) : (s.setLrap v).a = s.a := rfl
@[simp] theorem State.setLrap_b (s : State) (v : Addr) : (s.setLrap v).b = s.b := rfl
@[simp] theorem State.setLrap_c (s : State) (v : Addr) : (s.setLrap v).c = s.c := rfl
@[simp] theorem State.setLrap_l (s : State) (v : Addr) : (s.setLrap v).l = s.l := rfl
@[simp] theorem State.setLrap_h (s : State) (v : Addr) : (s.setLrap v).h = s.h := rfl
@[simp] theorem State.setLrap_m (s : State) (v : Addr) : (s.setLrap v).m = s.m := rfl
@[simp] theorem State.setLrap_lrap (s : State) (v : Addr) : (s.setLrap v).lrap = v := rfl
@[simp] theorem State.setLrap_pc (s : State) (v : Addr) : (s.setLrap v).pc = s.pc := rfl
@[simp] theorem State.setLrap_mem (s : State) (v : Addr) : (s.setLrap v).mem = s.mem := rfl
@[simp] theorem State.setLrap_status (s : State) (v : Addr) : (s.setLrap v).status = s.status := rfl
@[simp] theorem State.setLrap_cause (s : State) (v : Addr) : (s.setLrap v).cause = s.cause := rfl
@[simp] theorem State.setLrap_events (s : State) (v : Addr) : (s.setLrap v).events = s.events := rfl
@[simp] theorem State.setLrap_start (s : State) (v : Addr) : (s.setLrap v).start = s.start := rfl
@[simp] theorem State.setLrap_cfg (s : State) (v : Addr) : (s.setLrap v).cfg = s.cfg := rfl

@[simp] theorem State.setPc_a (s : State) (v : Addr) : (s.setPc v).a = s.a := rfl
@[simp] theorem State.setPc_b (s : State) (v : Addr) : (s.setPc v).b = s.b := rfl
@[simp] theorem State.setPc_c (s : State) (v : Addr) : (s.setPc v).c = s.c := rfl
@[simp] theorem State.setPc_l (s : State) (v : Addr) : (s.setPc v).l = s.l := rfl
@[simp] theorem State.setPc_h (s : State) (v : Addr) : (s.setPc v).h = s.h := rfl
@[simp] theorem State.setPc_m (s : State) (v : Addr) : (s.setPc v).m = s.m := rfl
@[simp] theorem State.setPc_lrap (s : State) (v : Addr) : (s.setPc v).lrap = s.lrap := rfl
@[simp] theorem State.setPc_pc (s : State) (v : Addr) : (s.setPc v).pc = v := rfl
@[simp] theorem State.setPc_mem (s : State) (v : Addr) : (s.setPc v).mem = s.mem := rfl
@[simp] theorem State.setPc_status (s : State) (v : Addr) : (s.setPc v).status = s.status := rfl
@[simp] theorem State.setPc_cause (s : State) (v : Addr) : (s.setPc v).cause = s.cause := rfl
@[simp] theorem State.setPc_events (s : State) (v : Addr) : (s.setPc v).events = s.events := rfl
@[simp] theorem State.setPc_start (s : State) (v : Addr) : (s.setPc v).start = s.start := rfl
@[simp] theorem State.setPc_cfg (s : State) (v : Addr) : (s.setPc v).cfg = s.cfg := rfl

@[simp] theorem State.setStart_a (s : State) (v : Addr) : (s.setStart v).a = s.a := rfl
@[simp] theorem State.setStart_b (s : State) (v : Addr) : (s.setStart v).b = s.b := rfl
@[simp] theorem State.setStart_c (s : State) (v : Addr) : (s.setStart v).c = s.c := rfl
@[simp] theorem State.setStart_l (s : State) (v : Addr) : (s.setStart v).l = s.l := rfl
@[simp] theorem State.setStart_h (s : State) (v : Addr) : (s.setStart v).h = s.h := rfl
@[simp] theorem State.setStart_m (s : State) (v : Addr) : (s.setStart v).m = s.m := rfl
@[simp] theorem State.setStart_lrap (s : State) (v : Addr) : (s.setStart v).lrap = s.lrap := rfl
@[simp] theorem State.setStart_pc (s : State) (v : Addr) : (s.setStart v).pc = s.pc := rfl
@[simp] theorem State.setStart_mem (s : State) (v : Addr) : (s.setStart v).mem = s.mem := rfl
@[simp] theorem State.setStart_status (s : State) (v : Addr) : (s.setStart v).status = s.status := rfl
@[simp] theorem State.setStart_cause (s : State) (v : Addr) : (s.setStart v).cause = s.cause := rfl
@[simp] theorem State.setStart_events (s : State) (v : Addr) : (s.setStart v).events = s.events := rfl
@[simp] theorem State.setStart_start (s : State) (v : Addr) : (s.setStart v).start = v := rfl
@[simp] theorem State.setStart_cfg (s : State) (v : Addr) : (s.setStart v).cfg = s.cfg := rfl

@[simp] theorem State.setMem_a (s : State) (v : List Host.Cell) : (s.setMem v).a = s.a := rfl
@[simp] theorem State.setMem_b (s : State) (v : List Host.Cell) : (s.setMem v).b = s.b := rfl
@[simp] theorem State.setMem_c (s : State) (v : List Host.Cell) : (s.setMem v).c = s.c := rfl
@[simp] theorem State.setMem_l (s : State) (v : List Host.Cell) : (s.setMem v).l = s.l := rfl
@[simp] theorem State.setMem_h (s : State) (v : List Host.Cell) : (s.setMem v).h = s.h := rfl
@[simp] theorem State.setMem_m (s : State) (v : List Host.Cell) : (s.setMem v).m = s.m := rfl
@[simp] theorem State.setMem_lrap (s : State) (v : List Host.Cell) : (s.setMem v).lrap = s.lrap := rfl
@[simp] theorem State.setMem_pc (s : State) (v : List Host.Cell) : (s.setMem v).pc = s.pc := rfl
@[simp] theorem State.setMem_mem (s : State) (v : List Host.Cell) : (s.setMem v).mem = v := rfl
@[simp] theorem State.setMem_status (s : State) (v : List Host.Cell) : (s.setMem v).status = s.status := rfl
@[simp] theorem State.setMem_cause (s : State) (v : List Host.Cell) : (s.setMem v).cause = s.cause := rfl
@[simp] theorem State.setMem_events (s : State) (v : List Host.Cell) : (s.setMem v).events = s.events := rfl
@[simp] theorem State.setMem_start (s : State) (v : List Host.Cell) : (s.setMem v).start = s.start := rfl
@[simp] theorem State.setMem_cfg (s : State) (v : List Host.Cell) : (s.setMem v).cfg = s.cfg := rfl

@[simp] theorem State.stop_a (s : State) (st : RunStatus) (ca : StopCause) : (s.stop st ca).a = s.a := rfl
@[simp] theorem State.stop_b (s : State) (st : RunStatus) (ca : StopCause) : (s.stop st ca).b = s.b := rfl
@[simp] theorem State.stop_c (s : State) (st : RunStatus) (ca : StopCause) : (s.stop st ca).c = s.c := rfl
@[simp] theorem State.stop_l (s : State) (st : RunStatus) (ca : StopCause) : (s.stop st ca).l = s.l := rfl
@[simp] theorem State.stop_h (s : State) (st : RunStatus) (ca : StopCause) : (s.stop st ca).h = s.h := rfl
@[simp] theorem State.stop_m (s : State) (st : RunStatus) (ca : StopCause) : (s.stop st ca).m = s.m := rfl
@[simp] theorem State.stop_lrap (s : State) (st : RunStatus) (ca : StopCause) : (s.stop st ca).lrap = s.lrap := rfl
@[simp] theorem State.stop_pc (s : State) (st : RunStatus) (ca : StopCause) : (s.stop st ca).pc = s.pc := rfl
@[simp] theorem State.stop_mem (s : State) (st : RunStatus) (ca : StopCause) : (s.stop st ca).mem = s.mem := rfl
@[simp] theorem State.stop_status (s : State) (st : RunStatus) (ca : StopCause) : (s.stop st ca).status = st := rfl
@[simp] theorem State.stop_cause (s : State) (st : RunStatus) (ca : StopCause) : (s.stop st ca).cause = ca := rfl
@[simp] theorem State.stop_events (s : State) (st : RunStatus) (ca : StopCause) : (s.stop st ca).events = s.events := rfl
@[simp] theorem State.stop_start (s : State) (st : RunStatus) (ca : StopCause) : (s.stop st ca).start = s.start := rfl
@[simp] theorem State.stop_cfg (s : State) (st : RunStatus) (ca : StopCause) : (s.stop st ca).cfg = s.cfg := rfl

@[simp] theorem State.emit_a (s : State) (ca : StopCause) (info : Info) : (s.emit ca info).a = s.a := rfl
@[simp] theorem State.emit_b (s : State) (ca : StopCause) (info : Info) : (s.emit ca info).b = s.b := rfl
@[simp] theorem State.emit_c (s : State) (ca : StopCause) (info : Info) : (s.emit ca info).c = s.c := rfl
@[simp] theorem State.emit_l (s : State) (ca : StopCause) (info : Info) : (s.emit ca info).l = s.l := rfl
@[simp] theorem State.emit_h (s : State) (ca : StopCause) (info : Info) : (s.emit ca info).h = s.h := rfl
@[simp] theorem State.emit_m (s : State) (ca : StopCause) (info : Info) : (s.emit ca info).m = s.m := rfl
@[simp] theorem State.emit_lrap (s : State) (ca : StopCause) (info : Info) : (s.emit ca info).lrap = s.lrap := rfl
@[simp] theorem State.emit_pc (s : State) (ca : StopCause) (info : Info) : (s.emit ca info).pc = s.pc := rfl
@[simp] theorem State.emit_mem (s : State) (ca : StopCause) (info : Info) : (s.emit ca info).mem = s.mem := rfl
@[simp] theorem State.emit_status (s : State) (ca : StopCause) (info : Info) : (s.emit ca info).status = s.status := rfl
@[simp] theorem State.emit_cause (s : State) (ca : StopCause) (info : Info) : (s.emit ca info).cause = s.cause := rfl
@[simp] theorem State.emit_events (s : State) (ca : StopCause) (info : Info) : (s.emit ca info).events = s.events ++ [⟨ca, info, s.start⟩] := rfl
@[simp] theorem State.emit_start (s : State) (ca : StopCause) (info : Info) : (s.emit ca info).start = s.start := rfl
@[simp] theorem State.emit_cfg (s : State) (ca : StopCause) (info : Info) : (s.emit ca info).cfg = s.cfg := rfl

@[simp] theorem State.setReg_a_a (s : State) (v : Byte) : (s.setReg .a v).a = v := rfl
@[simp] theorem State.setReg_a_b (s : State) (v : Byte) : (s.setReg .a v).b = s.b := rfl
@[simp] theorem State.setReg_a_c (s : State) (v : Byte) : (s.setReg .a v).c = s.c := rfl
@[simp] theorem State.setReg_a_l (s : State) (v : Byte) : (s.setReg .a v).l = s.l := rfl
@[simp] theorem State.setReg_a_h (s : State) (v : Byte) : (s.setReg .a v).h = s.h := rfl
@[simp] theorem State.setReg_a_m (s : State) (v : Byte) : (s.setReg .a v).m = s.m := rfl
@[simp] theorem State.setReg_a_lrap (s : State) (v : Byte) : (s.setReg .a v).lrap = s.lrap := rfl
@[simp] theorem State.setReg_a_pc (s : State) (v : Byte) : (s.setReg .a v).pc = s.pc := rfl
@[simp] theorem State.setReg_a_mem (s : State) (v : Byte) : (s.setReg .a v).mem = s.mem := rfl
@[simp] theorem State.setReg_a_status (s : State) (v : Byte) : (s.setReg .a v).status = s.status := rfl
@[simp] theorem State.setReg_a_cause (s : State) (v : Byte) : (s.setReg .a v).cause = s.cause := rfl
@[simp] theorem State.setReg_a_events (s : State) (v : Byte) : (s.setReg .a v).events = s.events := rfl
@[simp] theorem State.setReg_a_start (s : State) (v : Byte) : (s.setReg .a v).start = s.start := rfl
@[simp] theorem State.setReg_a_cfg (s : State) (v : Byte) : (s.setReg .a v).cfg = s.cfg := rfl

@[simp] theorem State.setReg_b_a (s : State) (v : Byte) : (s.setReg .b v).a = s.a := rfl
@[simp] theorem State.setReg_b_b (s : State) (v : Byte) : (s.setReg .b v).b = v := rfl
@[simp] theorem State.setReg_b_c (s : State) (v : Byte) : (s.setReg .b v).c = s.c := rfl
@[simp] theorem State.setReg_b_l (s : State) (v : Byte) : (s.setReg .b v).l = s.l := rfl
@[simp] theorem State.setReg_b_h (s : State) (v : Byte) : (s.setReg .b v).h = s.h := rfl
@[simp] theorem State.setReg_b_m (s : State) (v : Byte) : (s.setReg .b v).m = s.m := rfl
@[simp] theorem State.setReg_b_lrap (s : State) (v : Byte) : (s.setReg .b v).lrap = s.lrap := rfl
@[simp] theorem State.setReg_b_pc (s : State) (v : Byte) : (s.setReg .b v).pc = s.pc := rfl
@[simp] theorem State.setReg_b_mem (s : State) (v : Byte) : (s.setReg .b v).mem = s.mem := rfl
@[simp] theorem State.setReg_b_status (s : State) (v : Byte) : (s.setReg .b v).status = s.status := rfl
@[simp] theorem State.setReg_b_cause (s : State) (v : Byte) : (s.setReg .b v).cause = s.cause := rfl
@[simp] theorem State.setReg_b_events (s : State) (v : Byte) : (s.setReg .b v).events = s.events := rfl
@[simp] theorem State.setReg_b_start (s : State) (v : Byte) : (s.setReg .b v).start = s.start := rfl
@[simp] theorem State.setReg_b_cfg (s : State) (v : Byte) : (s.setReg .b v).cfg = s.cfg := rfl

@[simp] theorem State.setReg_c_a (s : State) (v : Byte) : (s.setReg .c v).a = s.a := rfl
@[simp] theorem State.setReg_c_b (s : State) (v : Byte) : (s.setReg .c v).b = s.b := rfl
@[simp] theorem State.setReg_c_c (s : State) (v : Byte) : (s.setReg .c v).c = v := rfl
@[simp] theorem State.setReg_c_l (s : State) (v : Byte) : (s.setReg .c v).l = s.l := rfl
@[simp] theorem State.setReg_c_h (s : State) (v : Byte) : (s.setReg .c v).h = s.h := rfl
@[simp] theorem State.setReg_c_m (s : State) (v : Byte) : (s.setReg .c v).m = s.m := rfl
@[simp] theorem State.setReg_c_lrap (s : State) (v : Byte) : (s.setReg .c v).lrap = s.lrap := rfl
@[simp] theorem State.setReg_c_pc (s : State) (v : Byte) : (s.setReg .c v).pc = s.pc := rfl
@[simp] theorem State.setReg_c_mem (s : State) (v : Byte) : (s.setReg .c v).mem = s.mem := rfl
@[simp] theorem State.setReg_c_status (s : State) (v : Byte) : (s.setReg .c v).status = s.status := rfl
@[simp] theorem State.setReg_c_cause (s : State) (v : Byte) : (s.setReg .c v).cause = s.cause := rfl
@[simp] theorem State.setReg_c_events (s : State) (v : Byte) : (s.setReg .c v).events = s.events := rfl
@[simp] theorem State.setReg_c_start (s : State) (v : Byte) : (s.setReg .c v).start = s.start := rfl
@[simp] theorem State.setReg_c_cfg (s : State) (v : Byte) : (s.setReg .c v).cfg = s.cfg := rfl

@[simp] theorem State.setReg_l_a (s : State) (v : Byte) : (s.setReg .l v).a = s.a := rfl
@[simp] theorem State.setReg_l_b (s : State) (v : Byte) : (s.setReg .l v).b = s.b := rfl
@[simp] theorem State.setReg_l_c (s : State) (v : Byte) : (s.setReg .l v).c = s.c := rfl
@[simp] theorem State.setReg_l_l (s : State) (v : Byte) : (s.setReg .l v).l = v := rfl
@[simp] theorem State.setReg_l_h (s : State) (v : Byte) : (s.setReg .l v).h = s.h := rfl
@[simp] theorem State.setReg_l_m (s : State) (v : Byte) : (s.setReg .l v).m = s.m := rfl
@[simp] theorem State.setReg_l_lrap (s : State) (v : Byte) : (s.setReg .l v).lrap = s.lrap := rfl
@[simp] theorem State.setReg_l_pc (s : State) (v : Byte) : (s.setReg .l v).pc = s.pc := rfl
@[simp] theorem State.setReg_l_mem (s : State) (v : Byte) : (s.setReg .l v).mem = s.mem := rfl
@[simp] theorem State.setReg_l_status (s : State) (v : Byte) : (s.setReg .l v).status = s.status := rfl
@[simp] theorem State.setReg_l_cause (s : State) (v : Byte) : (s.setReg .l v).cause = s.cause := rfl
@[simp] theorem State.setReg_l_events (s : State) (v : Byte) : (s.setReg .l v).events = s.events := rfl
@[simp] theorem State.setReg_l_start (s : State) (v : Byte) : (s.setReg .l v).start = s.start := rfl
@[simp] theorem State.setReg_l_cfg (s : State) (v : Byte) : (s.setReg .l v).cfg = s.cfg := rfl

@[simp] theorem State.setReg_h_a (s : State) (v : Byte) : (s.setReg .h v).a = s.a := rfl
@[simp] theorem State.setReg_h_b (s : State) (v : Byte) : (s.setReg .h v).b = s.b := rfl
@[simp] theorem State.setReg_h_c (s : State) (v : Byte) : (s.setReg .h v).c = s.c := rfl
@[simp] theorem State.setReg_h_l (s : State) (v : Byte) : (s.setReg .h v).l = s.l := rfl
@[simp] theorem State.setReg_h_h (s : State) (v : Byte) : (s.setReg .h v).h = v := rfl
@[simp] theorem State.setReg_h_m (s : State) (v : Byte) : (s.setReg .h v).m = s.m := rfl
@[simp] theorem State.setReg_h_lrap (s : State) (v : Byte) : (s.setReg .h v).lrap = s.lrap := rfl
@[simp] theorem State.setReg_h_pc (s : State) (v : Byte) : (s.setReg .h v).pc = s.pc := rfl
@[simp] theorem State.setReg_h_mem (s : State) (v : Byte) : (s.setReg .h v).mem = s.mem := rfl
@[simp] theorem State.setReg_h_status (s : State) (v : Byte) : (s.setReg .h v).status = s.status := rfl
@[simp] theorem State.setReg_h_cause (s : State) (v : Byte) : (s.setReg .h v).cause = s.cause := rfl
@[simp] theorem State.setReg_h_events (s : State) (v : Byte) : (s.setReg .h v).events = s.events := rfl
@[simp] theorem State.setReg_h_start (s : State) (v : Byte) : (s.setReg .h v).start = s.start := rfl
@[simp] theorem State.setReg_h_cfg (s : State) (v : Byte) : (s.setReg .h v).cfg = s.cfg := rfl

@[simp] theorem State.setReg_m (s : State) (r : Reg8) (v : Byte) : (s.setReg r v).m = s.m := by
  cases r <;> rfl
@[simp] theorem State.setReg_lrap (s : State) (r : Reg8) (v : Byte) : (s.setReg r v).lrap = s.lrap := by
  cases r <;> rfl
@[simp] theorem State.setReg_pc (s : State) (r : Reg8) (v : Byte) : (s.setReg r v).pc = s.pc := by
  cases r <;> rfl
@[simp] theorem State.setReg_mem (s : State) (r : Reg8) (v : Byte) : (s.setReg r v).mem = s.mem := by
  cases r <;> rfl
@[simp] theorem State.setReg_status (s : State) (r : Reg8) (v : Byte) : (s.setReg r v).status = s.status := by
  cases r <;> rfl
@[simp] theorem State.setReg_cause (s : State) (r : Reg8) (v : Byte) : (s.setReg r v).cause = s.cause := by
  cases r <;> rfl
@[simp] theorem State.setReg_events (s : State) (r : Reg8) (v : Byte) : (s.setReg r v).events = s.events := by
  cases r <;> rfl
@[simp] theorem State.setReg_start (s : State) (r : Reg8) (v : Byte) : (s.setReg r v).start = s.start := by
  cases r <;> rfl
@[simp] theorem State.setReg_cfg (s : State) (r : Reg8) (v : Byte) : (s.setReg r v).cfg = s.cfg := by
  cases r <;> rfl

theorem State.reg_setReg (s : State) (r r' : Reg8) (v : Byte) :
    (s.setReg r v).reg r' = if r' = r then v else s.reg r' := by
  cases r <;> cases r' <;> rfl

@[simp] theorem State.reg_setReg_same (s : State) (r : Reg8) (v : Byte) : (s.setReg r v).reg r = v := by
  cases r <;> rfl

@[simp] theorem State.reg_a (s : State) : s.reg .a = s.a := rfl
@[simp] theorem State.reg_b (s : State) : s.reg .b = s.b := rfl
@[simp] theorem State.reg_c (s : State) : s.reg .c = s.c := rfl
@[simp] theorem State.reg_l (s : State) : s.reg .l = s.l := rfl
@[simp] theorem State.reg_h (s : State) : s.reg .h = s.h := rfl

@[simp] theorem State.setM_byteAt (s : State) (v : Bit) (addr : Addr) : (s.setM v).byteAt addr = s.byteAt addr := rfl
@[simp] theorem State.setLrap_byteAt (s : State) (v : Addr) (addr : Addr) : (s.setLrap v).byteAt addr = s.byteAt addr := rfl
@[simp] theorem State.setPc_byteAt (s : State) (v : Addr) (addr : Addr) : (s.setPc v).byteAt addr = s.byteAt addr := rfl
@[simp] theorem State.setStart_byteAt (s : State) (v : Addr) (addr : Addr) : (s.setStart v).byteAt addr = s.byteAt addr := rfl
@[simp] theorem State.stop_byteAt (s : State) (st : RunStatus) (ca : StopCause) (addr : Addr) : (s.stop st ca).byteAt addr = s.byteAt addr := rfl
@[simp] theorem State.emit_byteAt (s : State) (ca : StopCause) (info : Info) (addr : Addr) : (s.emit ca info).byteAt addr = s.byteAt addr := rfl
@[simp] theorem State.setReg_byteAt (s : State) (r : Reg8) (v : Byte) (addr : Addr) :
    (s.setReg r v).byteAt addr = s.byteAt addr := by
  cases r <;> rfl

@[simp] theorem State.setByte_a (s : State) (addr : Addr) (v : Byte) : (s.setByte addr v).a = s.a := rfl
@[simp] theorem State.setByte_b (s : State) (addr : Addr) (v : Byte) : (s.setByte addr v).b = s.b := rfl
@[simp] theorem State.setByte_c (s : State) (addr : Addr) (v : Byte) : (s.setByte addr v).c = s.c := rfl
@[simp] theorem State.setByte_l (s : State) (addr : Addr) (v : Byte) : (s.setByte addr v).l = s.l := rfl
@[simp] theorem State.setByte_h (s : State) (addr : Addr) (v : Byte) : (s.setByte addr v).h = s.h := rfl
@[simp] theorem State.setByte_m (s : State) (addr : Addr) (v : Byte) : (s.setByte addr v).m = s.m := rfl
@[simp] theorem State.setByte_lrap (s : State) (addr : Addr) (v : Byte) : (s.setByte addr v).lrap = s.lrap := rfl
@[simp] theorem State.setByte_pc (s : State) (addr : Addr) (v : Byte) : (s.setByte addr v).pc = s.pc := rfl
@[simp] theorem State.setByte_status (s : State) (addr : Addr) (v : Byte) : (s.setByte addr v).status = s.status := rfl
@[simp] theorem State.setByte_cause (s : State) (addr : Addr) (v : Byte) : (s.setByte addr v).cause = s.cause := rfl
@[simp] theorem State.setByte_events (s : State) (addr : Addr) (v : Byte) : (s.setByte addr v).events = s.events := rfl
@[simp] theorem State.setByte_start (s : State) (addr : Addr) (v : Byte) : (s.setByte addr v).start = s.start := rfl
@[simp] theorem State.setByte_cfg (s : State) (addr : Addr) (v : Byte) : (s.setByte addr v).cfg = s.cfg := rfl
@[simp] theorem State.setByte_mem (s : State) (addr : Addr) (v : Byte) :
    (s.setByte addr v).mem = memSet s.mem addr.toNat v := rfl

end Sys2Proof.Machine
end

