-- ==== Sys2Proof/Laws/Memory.lean ====
section
/-! SUPPORT. Memory: a read after a write, the frame of a write, the canonical form kept by every write
(20_memory.md R57, R58, R67). -/

namespace Sys2Proof.Machine

theorem memGet_filter_ne (cells : List Host.Cell) (addr other : Nat) (h : other ≠ addr) :
    memGet (cells.filter (fun cell => cell.1 != addr)) other = memGet cells other := by
  induction cells with
  | nil => rfl
  | cons cell cells ih =>
    obtain ⟨k, v⟩ := cell
    by_cases hk : k = addr
    · subst hk
      simp [memGet, ih, Ne.symm h]
    · simp [memGet, hk, ih]

theorem memGet_filter_self (cells : List Host.Cell) (addr : Nat) :
    memGet (cells.filter (fun cell => cell.1 != addr)) addr = unlistedByte := by
  induction cells with
  | nil => rfl
  | cons cell cells ih =>
    obtain ⟨k, v⟩ := cell
    by_cases hk : k = addr
    · subst hk; simpa using ih
    · simp [memGet, hk, ih]

/-- A read after a write to the same address gives the byte written. -/
theorem memGet_memSet_same (cells : List Host.Cell) (addr : Nat) (v : Byte) :
    memGet (memSet cells addr v) addr = v := by
  induction cells with
  | nil => by_cases hv : v = unlistedByte <;> simp [memSet, memGet, hv]
  | cons cell cells ih =>
    obtain ⟨k, w⟩ := cell
    by_cases hk : k < addr
    · simp [memSet, memGet, hk, ih, Nat.ne_of_lt hk]
    · by_cases hv : v = unlistedByte
      · simp only [memSet, hk, hv, if_true, if_false]
        exact memGet_filter_self _ _
      · simp [memSet, memGet, hk, hv]

/-- A write leaves every other address alone. -/
theorem memGet_memSet_other (cells : List Host.Cell) (addr other : Nat) (v : Byte) (h : other ≠ addr) :
    memGet (memSet cells addr v) other = memGet cells other := by
  induction cells with
  | nil => by_cases hv : v = unlistedByte <;> simp [memSet, memGet, hv, Ne.symm h]
  | cons cell cells ih =>
    obtain ⟨k, w⟩ := cell
    by_cases hk : k < addr
    · simp [memSet, memGet, hk, ih]
    · by_cases hv : v = unlistedByte
      · simp only [memSet, hk, hv, if_true, if_false]
        exact memGet_filter_ne _ _ _ h
      · simp only [memSet, hk, hv, if_false]
        rw [memGet, if_neg (Ne.symm h)]
        exact memGet_filter_ne _ _ _ h

theorem State.byteAt_setByte_same (s : State) (addr : Addr) (v : Byte) :
    (s.setByte addr v).byteAt addr = v := memGet_memSet_same _ _ _

theorem State.byteAt_setByte_other (s : State) (addr other : Addr) (v : Byte) (h : other ≠ addr) :
    (s.setByte addr v).byteAt other = s.byteAt other :=
  memGet_memSet_other _ _ _ _ (fun e => h (BitVec.eq_of_toNat_eq e))

theorem memWfFrom_cons (low k : Nat) (v : Byte) (cells : List Host.Cell) :
    memWfFrom low ((k, v) :: cells) = true ↔
      low ≤ k ∧ k < 65536 ∧ v ≠ unlistedByte ∧ memWfFrom (k + 1) cells = true := by
  simp [memWfFrom, and_assoc]

/-- A canonical listing is canonical from any lower address. -/
theorem memWfFrom_mono {low low' : Nat} {cells : List Host.Cell} (h : memWfFrom low cells = true)
    (hl : low' ≤ low) : memWfFrom low' cells = true := by
  cases cells with
  | nil => rfl
  | cons cell cells =>
    obtain ⟨k, v⟩ := cell
    rw [memWfFrom_cons] at h ⊢
    exact ⟨hl.trans h.1, h.2⟩

/-- In a canonical listing every address lies at or above the lower end. -/
theorem memWfFrom_le {low : Nat} {cells : List Host.Cell} (h : memWfFrom low cells = true) :
    ∀ cell ∈ cells, low ≤ cell.1 := by
  induction cells generalizing low with
  | nil => simp
  | cons cell cells ih =>
    obtain ⟨k, v⟩ := cell
    rw [memWfFrom_cons] at h
    rintro cell' (_ | ⟨_, hm⟩)
    · exact h.1
    · exact (Nat.le_succ_of_le h.1).trans (ih h.2.2.2 _ hm)

theorem filter_ne_of_lt {low addr : Nat} {cells : List Host.Cell} (h : memWfFrom low cells = true)
    (hl : addr < low) : cells.filter (fun cell => cell.1 != addr) = cells := by
  rw [List.filter_eq_self]
  intro cell hm
  have := memWfFrom_le h cell hm
  simp; omega

/-- A write keeps the canonical form. -/
theorem memSet_keeps_wfFrom {low : Nat} {cells : List Host.Cell} (addr : Nat) (v : Byte)
    (h : memWfFrom low cells = true) (hl : low ≤ addr) (ha : addr < 65536) :
    memWfFrom low (memSet cells addr v) = true := by
  induction cells generalizing low with
  | nil =>
    by_cases hv : v = unlistedByte
    · simp [memSet, hv, memWfFrom]
    · simp only [memSet, hv, if_false, memWfFrom_cons]
      exact ⟨hl, ha, hv, rfl⟩
  | cons cell cells ih =>
    obtain ⟨k, w⟩ := cell
    have h' := (memWfFrom_cons ..).1 h
    by_cases hk : k < addr
    · simp only [memSet, hk, if_true, memWfFrom_cons]
      exact ⟨h'.1, h'.2.1, h'.2.2.1, ih h'.2.2.2 hk⟩
    · have hrest : memWfFrom (addr + 1) (((k, w) :: cells).filter (fun cell => cell.1 != addr)) = true := by
        by_cases hka : k = addr
        · subst hka
          simp only [List.filter_cons, bne_self_eq_false, Bool.false_eq_true, if_false]
          rw [filter_ne_of_lt h'.2.2.2 (Nat.lt_succ_self _)]
          exact h'.2.2.2
        · have hlt : addr < k := by omega
          have hwf : memWfFrom (addr + 1) ((k, w) :: cells) = true :=
            (memWfFrom_cons ..).2 ⟨hlt, h'.2⟩
          rw [filter_ne_of_lt hwf (Nat.lt_succ_self _)]
          exact hwf
      by_cases hv : v = unlistedByte
      · simp only [memSet, hk, hv, if_true, if_false]
        exact memWfFrom_mono hrest (Nat.le_succ_of_le hl)
      · simp only [memSet, hk, hv, if_false, memWfFrom_cons]
        exact ⟨hl, ha, hv, hrest⟩

/-- Storing a byte keeps memory canonical. -/
theorem State.setByte_keeps_wf (s : State) (addr : Addr) (v : Byte) (h : Memory.wf s.mem = true) :
    Memory.wf (s.setByte addr v).mem = true :=
  memSet_keeps_wfFrom _ _ h (Nat.zero_le _) addr.isLt

/-- Memory is canonical at reset. -/
theorem resetWith_wf (cfg : Config) : Memory.wf (State.resetWith cfg []).mem = true := rfl

/-- Before anything is stored every byte reads 0x00 (10_state.md R35). -/
theorem resetWith_byteAt (cfg : Config) (addr : Addr) : (State.resetWith cfg []).byteAt addr = 0x00#8 := rfl

end Sys2Proof.Machine
end

