-- ==== Sys2Proof/Laws/Ops.lean ====
section
/-! SUPPORT. One lemma per shared operation that says once everything it can do. -/

namespace Sys2Proof.Machine

/-! ### Permissions and checked accesses -/

/-- An access is denied exactly when some rule covers the address and forbids the mode (20_memory.md R54). -/
theorem permitted_eq_false (regions : List RegionRule) (addr : Addr) (mode : AccessMode) :
    permitted regions addr mode = false ↔
      ∃ rule ∈ regions, covers rule addr = true ∧ forbids rule mode = true := by
  simp [permitted]

/-- A checked read answers the byte, or is denied (20_memory.md R57). -/
theorem memRead_cases (s : State) (addr : Addr) (mode : AccessMode) :
    (permitted s.cfg.regions addr mode = true ∧ memRead s addr mode = some (s.byteAt addr)) ∨
      (permitted s.cfg.regions addr mode = false ∧ memRead s addr mode = none) := by
  cases h : permitted s.cfg.regions addr mode <;> simp [memRead, h]

/-- A checked write stores the byte, or is denied and stores nothing (20_memory.md R58). -/
theorem memWrite_cases (s : State) (addr : Addr) (v : Byte) (mode : AccessMode) :
    (permitted s.cfg.regions addr mode = true ∧ memWrite s addr v mode = some (s.setByte addr v)) ∨
      (permitted s.cfg.regions addr mode = false ∧ memWrite s addr v mode = none) := by
  cases h : permitted s.cfg.regions addr mode <;> simp [memWrite, h]

/-! ### Stops and traps -/

/-- A fatal stop sets the status and the cause and emits one event, and does nothing else
(60_exceptions.md R209). -/
theorem raiseFatal_eq (c : FatalCause) (info : Info) (s : State) :
    raiseFatal c info s =
      { s with
        status := .fatal, cause := .fatal c, events := s.events ++ [⟨.fatal c, info, s.start⟩] } := rfl

/-- HLT's stop sets the status and the cause and emits one event, and does nothing else (42_control.md R176,
60_exceptions.md R203). -/
theorem stopHalted_eq (s : State) :
    stopHalted s =
      { s with status := .halted, cause := .halt, events := s.events ++ [⟨.halt, .none, s.start⟩] } := rfl

/-- A trap stops the CPU under policy HALT, is a double fault at the panic address, and otherwise enters the
handler (60_exceptions.md R205, R208). -/
theorem raiseTrap_cases (c : TrapCause) (info : Info) (s : State) :
    (s.cfg.policy = .halt ∧
        raiseTrap c info s =
          { s with
            status := .fatal, cause := .trap c, events := s.events ++ [⟨.trap c, info, s.start⟩] }) ∨
      (s.cfg.policy = .trap ∧ s.start = s.cfg.panicAddr ∧
        raiseTrap c info s = raiseFatal .doubleFault (.inner c) s) ∨
      (s.cfg.policy = .trap ∧ s.start ≠ s.cfg.panicAddr ∧
        raiseTrap c info s =
          { s with
            lrap := s.start, pc := s.cfg.panicAddr,
            events := s.events ++ [⟨.trap c, info, s.start⟩] }) := by
  cases hp : s.cfg.policy with
  | halt => exact .inl ⟨rfl, by simp [raiseTrap, hp, State.stop, State.emit]⟩
  | trap =>
    by_cases h : s.start = s.cfg.panicAddr
    · exact .inr (.inl ⟨rfl, h, by simp [raiseTrap, hp, h]⟩)
    · exact .inr (.inr ⟨rfl, h, by simp [raiseTrap, hp, h, State.setLrap, State.setPc, State.emit]⟩)

/-- Neither a trap nor a fatal stop touches the registers other than LRAP and the PC, memory, or the parameters
(60_exceptions.md R206). -/
theorem raiseTrap_frame (c : TrapCause) (info : Info) (s : State) :
    (raiseTrap c info s).a = s.a ∧ (raiseTrap c info s).b = s.b ∧ (raiseTrap c info s).c = s.c ∧
      (raiseTrap c info s).l = s.l ∧ (raiseTrap c info s).h = s.h ∧ (raiseTrap c info s).m = s.m ∧
      (raiseTrap c info s).mem = s.mem ∧ (raiseTrap c info s).start = s.start ∧
      (raiseTrap c info s).cfg = s.cfg := by
  rcases raiseTrap_cases c info s with ⟨-, h⟩ | ⟨-, -, h⟩ | ⟨-, -, h⟩ <;> rw [h] <;>
    exact ⟨rfl, rfl, rfl, rfl, rfl, rfl, rfl, rfl, rfl⟩

/-- A trap emits one record, with the start of the instruction (60_exceptions.md R203, R205). -/
theorem raiseTrap_events (c : TrapCause) (info : Info) (s : State) :
    ∃ e, (raiseTrap c info s).events = s.events ++ [e] ∧ e.start = s.start := by
  rcases raiseTrap_cases c info s with ⟨-, h⟩ | ⟨-, -, h⟩ | ⟨-, -, h⟩ <;> rw [h]
  · exact ⟨_, rfl, rfl⟩
  · exact ⟨_, rfl, rfl⟩
  · exact ⟨_, rfl, rfl⟩

/-! ### The capability check and the operand forms -/

/-- The capability check lets the effect run, or traps with a register that fails it (10_state.md R27). -/
theorem withCaps_cases (reads writes : List CapReg) (s : State) (effect : State → Result) :
    (firstViolation s.cfg.regCaps reads writes = none ∧ withCaps reads writes s effect = effect s) ∨
      ∃ r, firstViolation s.cfg.regCaps reads writes = some r ∧
        withCaps reads writes s effect = .next (raiseTrap .capabilityViolation (.register r) s) := by
  cases h : firstViolation s.cfg.regCaps reads writes with
  | none => exact .inl ⟨rfl, by simp [withCaps, h]⟩
  | some r => exact .inr ⟨r, rfl, by simp [withCaps, h]⟩

/-- The check fails for no register exactly when all reads are readable and all writes writable
(10_state.md R27). -/
theorem firstViolation_eq_none (caps : RegCaps) (reads writes : List CapReg) :
    firstViolation caps reads writes = none ↔
      (∀ r ∈ reads, (capOf caps r).readable = true) ∧ (∀ r ∈ writes, (capOf caps r).writable = true) := by
  unfold firstViolation
  cases h : reads.find? (fun r => !(capOf caps r).readable) with
  | none =>
    have h' := List.find?_eq_none.1 h
    simp only [List.find?_eq_none]
    simp only [Bool.not_eq_true', Bool.not_eq_false] at h' ⊢
    exact ⟨fun hw => ⟨h', hw⟩, fun hw => hw.2⟩
  | some r =>
    have h1 := List.mem_of_find?_eq_some h
    have h2 := List.find?_some (p := fun r => !(capOf caps r).readable) h
    simp only [Bool.not_eq_true'] at h2
    simp only [reduceCtorEq, false_iff]
    intro hc
    simp [hc.1 r h1] at h2

/-- With every register it reads readable and every register it writes writable, an instruction has its effect
(10_state.md R27). -/
theorem withCaps_of_allowed {reads writes : List CapReg} {s : State} (effect : State → Result)
    (hr : ∀ r ∈ reads, (capOf s.cfg.regCaps r).readable = true)
    (hw : ∀ r ∈ writes, (capOf s.cfg.regCaps r).writable = true) :
    withCaps reads writes s effect = effect s := by
  rw [withCaps, (firstViolation_eq_none ..).2 ⟨hr, hw⟩]

/-- A constant load writes its register, or traps (40_load_store.md R120). -/
theorem loadConst_cases (r : Reg8) (imm : Byte) (s : State) :
    loadConst r imm s = .next (s.setReg r imm) ∨
      ∃ q, loadConst r imm s = .next (raiseTrap .capabilityViolation (.register q) s) := by
  rcases withCaps_cases [] [.reg8 r] s (fun s => .next (s.setReg r imm)) with ⟨-, h⟩ | ⟨q, -, h⟩
  · exact .inl h
  · exact .inr ⟨q, h⟩

/-- A memory load writes its register from memory, or traps (40_load_store.md R120, R129). -/
theorem loadMem_cases (r : Reg8) (addr : Addr) (s : State) :
    (permitted s.cfg.regions addr .read = true ∧ loadMem r addr s = .next (s.setReg r (s.byteAt addr))) ∨
      ∃ c info, loadMem r addr s = .next (raiseTrap c info s) := by
  unfold loadMem withCaps
  split
  · exact .inr ⟨_, _, rfl⟩
  · rcases memRead_cases s addr .read with ⟨hp, h⟩ | ⟨-, h⟩ <;> (beta_reduce; rw [h])
    · exact .inl ⟨hp, rfl⟩
    · exact .inr ⟨_, _, rfl⟩

/-- A store stores one register's byte, or traps (40_load_store.md R122, R129). -/
theorem storeMem_cases (r : Reg8) (addr : Addr) (s : State) :
    (permitted s.cfg.regions addr .write = true ∧ storeMem r addr s = .next (s.setByte addr (s.reg r))) ∨
      ∃ c info, storeMem r addr s = .next (raiseTrap c info s) := by
  unfold storeMem withCaps
  split
  · exact .inr ⟨_, _, rfl⟩
  · rcases memWrite_cases s addr (s.reg r) .write with ⟨hp, h⟩ | ⟨-, h⟩ <;> (beta_reduce; rw [h])
    · exact .inl ⟨hp, rfl⟩
    · exact .inr ⟨_, _, rfl⟩

/-- An ALU instruction writes C from A and B, or traps (41_arith_logic.md R148). -/
theorem aluOp_cases (f : Byte → Byte → Byte) (s : State) :
    aluOp f s = .next (s.setReg .c (f s.a s.b)) ∨
      ∃ q, aluOp f s = .next (raiseTrap .capabilityViolation (.register q) s) := by
  rcases withCaps_cases [.reg8 .a, .reg8 .b] [.reg8 .c] s (fun s => .next (s.setReg .c (f s.a s.b)))
    with ⟨-, h⟩ | ⟨q, -, h⟩
  · exact .inl h
  · exact .inr ⟨q, h⟩

/-- A complement writes C from one register, or traps (41_arith_logic.md R143). -/
theorem aluOp1_cases (r : Reg8) (f : Byte → Byte) (s : State) :
    aluOp1 r f s = .next (s.setReg .c (f (s.reg r))) ∨
      ∃ q, aluOp1 r f s = .next (raiseTrap .capabilityViolation (.register q) s) := by
  rcases withCaps_cases [.reg8 r] [.reg8 .c] s (fun s => .next (s.setReg .c (f (s.reg r))))
    with ⟨-, h⟩ | ⟨q, -, h⟩
  · exact .inl h
  · exact .inr ⟨q, h⟩

/-- A byte's number is below 256, so what an arithmetic result keeps is its remainder (00_scope.md R11). -/
@[simp] theorem trunc8_toNat (x : Nat) : (trunc8 x).toNat = x % 256 := by simp [trunc8]

theorem isZero_eq_true (v : Byte) : isZero v = true ↔ v = 0x00#8 := by simp [isZero]

/-! ### Fetching -/

/-- A fetch answers the byte at the PC and moves on, or traps with the PC's address (30_encoding.md R86). -/
theorem fetchByte_cases (s : State) :
    (permitted s.cfg.regions s.pc .exec = true ∧
        fetchByte s = .ok (s.byteAt s.pc, s.setPc (s.pc + 1#16))) ∨
      (permitted s.cfg.regions s.pc .exec = false ∧
        fetchByte s = .error (raiseTrap .fetchViolation (.address s.pc) s)) := by
  unfold fetchByte
  rcases memRead_cases s s.pc .exec with ⟨h, h'⟩ | ⟨h, h'⟩ <;> simp [h, h']

theorem addr_add_ofNat_succ (p : Addr) (n : Nat) :
    p + 1#16 + BitVec.ofNat 16 n = p + BitVec.ofNat 16 (n + 1) := by
  rw [BitVec.add_assoc]
  congr 1
  apply BitVec.eq_of_toNat_eq
  simp
  omega

/-- Fetching `n` bytes reads them at rising addresses and moves the PC past them, or traps at the first denied
one with the PC there (30_encoding.md R86). -/
theorem fetchBytes_ok {n : Nat} {s t : State} {bs : List Byte} (h : fetchBytes n s = .ok (bs, t)) :
    bs.length = n ∧ t = s.setPc (s.pc + BitVec.ofNat 16 n) ∧
      ∀ k, k < n →
        bs[k]? = some (s.byteAt (s.pc + BitVec.ofNat 16 k)) ∧
          permitted s.cfg.regions (s.pc + BitVec.ofNat 16 k) .exec = true := by
  induction n generalizing s bs with
  | zero =>
    simp only [fetchBytes, Except.ok.injEq, Prod.mk.injEq] at h
    obtain ⟨rfl, rfl⟩ := h
    exact ⟨rfl, by simp [State.setPc], by simp⟩
  | succ n ih =>
    rw [fetchBytes] at h
    rcases fetchByte_cases s with ⟨hp, hf⟩ | ⟨-, hf⟩ <;> rw [hf] at h
    · simp only at h
      cases hr : fetchBytes n (s.setPc (s.pc + 1#16)) with
      | error e => simp [hr] at h
      | ok r =>
        obtain ⟨bs', t'⟩ := r
        simp only [hr, Except.ok.injEq, Prod.mk.injEq] at h
        obtain ⟨rfl, rfl⟩ := h
        obtain ⟨hl, ht, hk⟩ := ih hr
        refine ⟨by simp [hl], ?_, ?_⟩
        · rw [ht]
          simp only [State.setPc, addr_add_ofNat_succ]
        · intro k hkn
          cases k with
          | zero => simpa using hp
          | succ k =>
            have := hk k (by omega)
            simpa [addr_add_ofNat_succ] using this
    · simp at h

/-- When the first `n` bytes may be fetched, fetching them succeeds. -/
theorem fetchBytes_of_permitted (n : Nat) (s : State)
    (h : ∀ k, k < n → permitted s.cfg.regions (s.pc + BitVec.ofNat 16 k) .exec = true) :
    ∃ bs, fetchBytes n s = .ok (bs, s.setPc (s.pc + BitVec.ofNat 16 n)) := by
  induction n generalizing s with
  | zero => exact ⟨[], by simp [fetchBytes, State.setPc]⟩
  | succ n ih =>
    have h0 : permitted s.cfg.regions s.pc .exec = true := by simpa using h 0 (Nat.succ_pos _)
    rcases fetchByte_cases s with ⟨-, hf⟩ | ⟨hp, -⟩
    · obtain ⟨bs, hb⟩ := ih (s.setPc (s.pc + 1#16)) (fun k hk => by
        simpa [addr_add_ofNat_succ] using h (k + 1) (by omega))
      refine ⟨s.byteAt s.pc :: bs, ?_⟩
      rw [fetchBytes, hf]
      simp only [hb]
      simp [State.setPc, addr_add_ofNat_succ]
    · simp [h0] at hp

/-- Fetching stops at the first denied byte with a trap at its address (30_encoding.md R86). -/
theorem fetchBytes_denied {n m : Nat} (s : State) (hm : m < n)
    (h : ∀ k, k < m → permitted s.cfg.regions (s.pc + BitVec.ofNat 16 k) .exec = true)
    (hd : permitted s.cfg.regions (s.pc + BitVec.ofNat 16 m) .exec = false) :
    fetchBytes n s =
      .error (raiseTrap .fetchViolation (.address (s.pc + BitVec.ofNat 16 m))
        (s.setPc (s.pc + BitVec.ofNat 16 m))) := by
  induction m generalizing s n with
  | zero =>
    obtain ⟨n, rfl⟩ := Nat.exists_eq_succ_of_ne_zero (Nat.ne_of_gt hm)
    rcases fetchByte_cases s with ⟨hp, -⟩ | ⟨-, hf⟩
    · simp [hp] at hd
    · rw [fetchBytes, hf]
      simp [State.setPc]
  | succ m ih =>
    obtain ⟨n, rfl⟩ := Nat.exists_eq_succ_of_ne_zero (Nat.ne_of_gt (Nat.lt_of_le_of_lt (Nat.zero_le _) hm))
    have h0 : permitted s.cfg.regions s.pc .exec = true := by simpa using h 0 (Nat.succ_pos _)
    rcases fetchByte_cases s with ⟨-, hf⟩ | ⟨hp, -⟩
    · rw [fetchBytes, hf]
      simp only
      rw [ih (s := s.setPc (s.pc + 1#16)) (Nat.lt_of_succ_lt_succ hm)
        (fun k hk => by simpa [addr_add_ofNat_succ] using h (k + 1) (by omega))
        (by simpa [addr_add_ofNat_succ] using hd)]
      simp [State.setPc, addr_add_ofNat_succ]
    · simp [h0] at hp

/-- An instruction's bytes: control byte 0 at the PC gives the length, and the PC moves past all of them
(30_encoding.md R85, R86). -/
theorem fetchInstr_ok {s t : State} {bs : List Byte} (h : fetchInstr s = .ok (bs, t)) :
    lengthOf (s.byteAt s.pc) = some bs.length ∧ t = s.setPc (s.pc + BitVec.ofNat 16 bs.length) ∧
      ∀ k, k < bs.length →
        bs[k]? = some (s.byteAt (s.pc + BitVec.ofNat 16 k)) ∧
          permitted s.cfg.regions (s.pc + BitVec.ofNat 16 k) .exec = true := by
  rw [fetchInstr] at h
  rcases fetchByte_cases s with ⟨hp, hf⟩ | ⟨-, hf⟩ <;> rw [hf] at h
  · simp only at h
    cases hl : lengthOf (s.byteAt s.pc) with
    | none => simp [hl] at h
    | some len =>
      have hpos : 0 < len := by
        unfold lengthOf at hl
        obtain ⟨sc, -, rfl⟩ := Option.map_eq_some_iff.1 hl
        cases sc <;> simp [SizeClass.controlBytes]
      simp only [hl] at h
      cases hr : fetchBytes (len - 1) (s.setPc (s.pc + 1#16)) with
      | error e => simp [hr] at h
      | ok r =>
        obtain ⟨bs', t'⟩ := r
        simp only [hr, Except.ok.injEq, Prod.mk.injEq] at h
        obtain ⟨rfl, rfl⟩ := h
        obtain ⟨hlen, ht, hk⟩ := fetchBytes_ok hr
        have hlen' : bs'.length + 1 = len := by omega
        refine ⟨by simp [hlen'], ?_, ?_⟩
        · rw [ht, ← hlen]
          simp only [State.setPc, addr_add_ofNat_succ, List.length_cons]
        · intro k hkn
          cases k with
          | zero => simpa using hp
          | succ k =>
            have := hk k (by simp at hkn; omega)
            simpa [addr_add_ofNat_succ] using this
  · simp at h

end Sys2Proof.Machine
end

