-- ==== Sys2Proof/Laws/Exec.lean ====
section
/-! SUPPORT. What an instruction and a step can do, said once: every instruction answers a next state, and it is one of
the effects listed here; a step ends in a fetch trap, a fatal stop of the decoder, or an instruction's effect. -/

namespace Sys2Proof.Machine

/-- The states an instruction can lead to, from the state in which it executes. -/
inductive ExecEffect (s : State) : State → Prop where
  | trapped (c : TrapCause) (info : Info) : ExecEffect s (raiseTrap c info s)
  | register (r : Reg8) (v : Byte) : ExecEffect s (s.setReg r v)
  | clearedABC : ExecEffect s (((s.setReg .a 0x00#8).setReg .b 0x00#8).setReg .c 0x00#8)
  | clearedLH : ExecEffect s ((s.setReg .l 0x00#8).setReg .h 0x00#8)
  | stored (addr : Addr) (v : Byte) (h : permitted s.cfg.regions addr .write = true) :
      ExecEffect s (s.setByte addr v)
  | bank (v : Bit) : ExecEffect s (s.setM v)
  | jumped (target : Addr) : ExecEffect s (s.setPc target)
  | halted : ExecEffect s (stopHalted s)
  | panicked : ExecEffect s ((s.setLrap s.pc).setPc s.cfg.panicAddr)
  | nothing : ExecEffect s s

/-- A capability-checked effect traps or happens. -/
theorem withCaps_effect {reads writes : List CapReg} {s t : State} {effect : State → Result}
    (h : effect s = .next t) (ht : ExecEffect s t) :
    ∃ u, withCaps reads writes s effect = .next u ∧ ExecEffect s u := by
  rcases withCaps_cases reads writes s effect with ⟨-, hc⟩ | ⟨q, -, hc⟩
  · exact ⟨t, hc.trans h, ht⟩
  · exact ⟨_, hc, .trapped _ _⟩

/-- The same for an effect that always answers a next state. -/
theorem withCaps_next_effect (reads writes : List CapReg) (s : State) (g : State → State)
    (h : ExecEffect s (g s)) :
    ∃ u, withCaps reads writes s (fun s => .next (g s)) = .next u ∧ ExecEffect s u :=
  withCaps_effect rfl h

theorem loadConst_effect (r : Reg8) (imm : Byte) (s : State) :
    ∃ t, loadConst r imm s = .next t ∧ ExecEffect s t := by
  rcases loadConst_cases r imm s with h | ⟨q, h⟩
  · exact ⟨_, h, .register _ _⟩
  · exact ⟨_, h, .trapped _ _⟩

theorem loadMem_effect (r : Reg8) (addr : Addr) (s : State) :
    ∃ t, loadMem r addr s = .next t ∧ ExecEffect s t := by
  rcases loadMem_cases r addr s with ⟨-, h⟩ | ⟨_, _, h⟩
  · exact ⟨_, h, .register _ _⟩
  · exact ⟨_, h, .trapped _ _⟩

theorem storeMem_effect (r : Reg8) (addr : Addr) (s : State) :
    ∃ t, storeMem r addr s = .next t ∧ ExecEffect s t := by
  rcases storeMem_cases r addr s with ⟨hp, h⟩ | ⟨_, _, h⟩
  · exact ⟨_, h, .stored _ _ hp⟩
  · exact ⟨_, h, .trapped _ _⟩

theorem aluOp_effect (f : Byte → Byte → Byte) (s : State) : ∃ t, aluOp f s = .next t ∧ ExecEffect s t := by
  rcases aluOp_cases f s with h | ⟨q, h⟩
  · exact ⟨_, h, .register _ _⟩
  · exact ⟨_, h, .trapped _ _⟩

theorem aluOp1_effect (r : Reg8) (f : Byte → Byte) (s : State) :
    ∃ t, aluOp1 r f s = .next t ∧ ExecEffect s t := by
  rcases aluOp1_cases r f s with h | ⟨q, h⟩
  · exact ⟨_, h, .register _ _⟩
  · exact ⟨_, h, .trapped _ _⟩

theorem jumpIf_effect (taken : Bool) (target : Addr) (s : State) : ExecEffect s (jumpIf taken target s) := by
  cases taken
  · exact .nothing
  · exact .jumped _

theorem execDiv_effect (m : ImplicitMode) (s : State) : ∃ t, execDiv m s = .next t ∧ ExecEffect s t := by
  by_cases hz : isZero s.b = true
  · exact withCaps_effect (t := raiseTrap .divideByZero .none s) (by simp [hz]) (.trapped _ _)
  · exact withCaps_effect (t := s.setReg .c (divBytes s.a s.b)) (by simp [hz]) (.register _ _)

/-- Every instruction answers a next state, by one of the listed effects. -/
theorem exec_effect (i : Instr) (s : State) : ∃ t, exec i s = .next t ∧ ExecEffect s t := by
  cases i with
  | nop f m => exact ⟨s, rfl, .nothing⟩
  | ldaConst f imm => exact loadConst_effect _ _ _
  | ldaMem f addr => exact loadMem_effect _ _ _
  | ldbConst f imm => exact loadConst_effect _ _ _
  | ldbMem f addr => exact loadMem_effect _ _ _
  | sta f addr => exact storeMem_effect _ _ _
  | stb f addr => exact storeMem_effect _ _ _
  | stc f addr => exact storeMem_effect _ _ _
  | syscall f m => exact ⟨s, rfl, .nothing⟩
  | abc m => exact aluOp_effect _ _
  | sub m => exact aluOp_effect _ _
  | mul m => exact aluOp_effect _ _
  | div m => exact execDiv_effect m s
  | jmp f addr => exact ⟨_, rfl, jumpIf_effect _ _ _⟩
  | jz f addr => exact withCaps_next_effect _ _ _ (fun s => jumpIf (isZero s.c) addr s) (jumpIf_effect _ _ _)
  | jnz f addr => exact withCaps_next_effect _ _ _ (fun s => jumpIf (!isZero s.c) addr s) (jumpIf_effect _ _ _)
  | cmpEq m => exact aluOp_effect _ _
  | cmpLt m => exact aluOp_effect _ _
  | cplA m => exact aluOp1_effect _ _ _
  | cplB m => exact aluOp1_effect _ _ _
  | andAB f m => exact aluOp_effect _ _
  | xorAB f m => exact aluOp_effect _ _
  | orAB f m => exact aluOp_effect _ _
  | hlt f m => exact ⟨_, rfl, .halted⟩
  | panic f m => exact ⟨_, rfl, .panicked⟩
  | mbnkrom f m => exact withCaps_next_effect _ _ _ (fun s => s.setM 0#1) (.bank _)
  | mbnkram f m => exact withCaps_next_effect _ _ _ (fun s => s.setM 1#1) (.bank _)
  | zero f m =>
    exact withCaps_next_effect _ _ _
      (fun s => ((s.setReg .a 0x00#8).setReg .b 0x00#8).setReg .c 0x00#8) .clearedABC
  | ldlConst f imm => exact loadConst_effect _ _ _
  | ldlMem f addr => exact loadMem_effect _ _ _
  | ldhConst f imm => exact loadConst_effect _ _ _
  | ldhMem f addr => exact loadMem_effect _ _ _
  | cld f m =>
    exact withCaps_next_effect _ _ _ (fun s => (s.setReg .l 0x00#8).setReg .h 0x00#8) .clearedLH

/-- The state in the middle of a step, after `n` fetched bytes (30_encoding.md R86, R97). -/
def afterFetch (s : State) (n : Nat) : State :=
  { s with start := s.pc, pc := s.pc + BitVec.ofNat 16 n }

/-- Fetching stops in a trap of FETCH_VIOLATION, with the PC at the denied byte. -/
theorem fetchBytes_error {n : Nat} {s t : State} (h : fetchBytes n s = .error t) :
    ∃ k, t = raiseTrap .fetchViolation (.address (s.pc + BitVec.ofNat 16 k))
      (s.setPc (s.pc + BitVec.ofNat 16 k)) := by
  induction n generalizing s with
  | zero => simp [fetchBytes] at h
  | succ n ih =>
    rw [fetchBytes] at h
    rcases fetchByte_cases s with ⟨-, hf⟩ | ⟨-, hf⟩ <;> rw [hf] at h
    · simp only at h
      cases hr : fetchBytes n (s.setPc (s.pc + 1#16)) with
      | error e =>
        simp only [hr, Except.error.injEq] at h
        subst h
        obtain ⟨k, hk⟩ := ih hr
        exact ⟨k + 1, by simpa [State.setPc, addr_add_ofNat_succ] using hk⟩
      | ok r => simp [hr] at h
    · simp only [Except.error.injEq] at h
      subst h
      exact ⟨0, by simp [State.setPc]⟩

/-- The stages before execution end in a fetch trap or in a fatal stop of the decoder. -/
theorem fetchDecode_error {s t : State} (h : fetchDecode s = .error t) :
    (∃ n info, t = raiseTrap .fetchViolation info (afterFetch s n)) ∨
      ∃ n c, c ≠ FatalCause.doubleFault ∧ t = raiseFatal c .none (afterFetch s n) := by
  unfold fetchDecode at h
  cases hf : fetchInstr (s.setStart s.pc) with
  | error e =>
    simp only [hf, Except.error.injEq] at h
    subst h
    unfold fetchInstr at hf
    rcases fetchByte_cases (s.setStart s.pc) with ⟨-, hb⟩ | ⟨-, hb⟩ <;> rw [hb] at hf
    · simp only at hf
      split at hf
      · simp only [Except.error.injEq] at hf
        exact .inr ⟨1, .invalidOpcode, by simp, by rw [← hf]; rfl⟩
      · split at hf
        · rename_i e' he'
          simp only [Except.error.injEq] at hf
          subst hf
          obtain ⟨k, hk⟩ := fetchBytes_error he'
          exact .inl ⟨k + 1, _, by
            simpa [State.setPc, State.setStart, afterFetch, addr_add_ofNat_succ] using hk⟩
        · simp at hf
    · simp only [Except.error.injEq] at hf
      exact .inl ⟨0, _, by rw [← hf]; simp [afterFetch, State.setStart]; rfl⟩
  | ok r =>
    obtain ⟨bs, s'⟩ := r
    obtain ⟨-, hs', -⟩ := fetchInstr_ok hf
    have hmid : s' = afterFetch s bs.length := hs'
    simp only [hf] at h
    split at h
    · rename_i rej _
      simp only [Except.error.injEq] at h
      exact .inr ⟨bs.length, rejectCause rej, by cases rej <;> simp [rejectCause], by rw [← h, hmid]⟩
    · simp at h

/-- The stages before execution only fetch. -/
theorem fetchDecode_ok {s t : State} {i : Instr} (h : fetchDecode s = .ok (i, t)) :
    ∃ n, t = afterFetch s n := by
  unfold fetchDecode at h
  split at h
  · simp at h
  rename_i bs t' hf
  split at h
  · simp at h
  simp only [Except.ok.injEq, Prod.mk.injEq] at h
  obtain ⟨-, ht, -⟩ := fetchInstr_ok hf
  exact ⟨_, by rw [← h.2, ht]; rfl⟩

/-- What a step can do: only a running CPU takes one, and it ends in a fetch trap, in a fatal stop of the decoder, or in
the effect of one instruction. -/
theorem step_cases {s t : State} (h : step s = .next t) :
    s.status = .running ∧ ∃ n,
      (∃ info, t = raiseTrap .fetchViolation info (afterFetch s n)) ∨
      (∃ c, c ≠ FatalCause.doubleFault ∧ t = raiseFatal c .none (afterFetch s n)) ∨
      ∃ i, fetchDecode s = .ok (i, afterFetch s n) ∧ exec i (afterFetch s n) = .next t ∧
        ExecEffect (afterFetch s n) t := by
  unfold step at h
  split at h
  · rename_i hs
    refine ⟨hs, ?_⟩
    split at h
    · rename_i u hu
      simp only [Host.Outcome.next.injEq] at h
      subst h
      rcases fetchDecode_error hu with ⟨n, info, ht⟩ | ⟨n, c, hc, ht⟩
      · exact ⟨n, .inl ⟨info, ht⟩⟩
      · exact ⟨n, .inr (.inl ⟨c, hc, ht⟩)⟩
    · rename_i i u hu
      obtain ⟨n, rfl⟩ := fetchDecode_ok hu
      obtain ⟨t', ht', he⟩ := exec_effect i (afterFetch s n)
      rw [ht'] at h
      simp only [Host.Outcome.next.injEq] at h
      subst h
      exact ⟨n, .inr (.inr ⟨i, hu, ht', he⟩)⟩
  · simp at h
  · simp at h

end Sys2Proof.Machine
end

