-- ==== Sys2Proof/Laws/PerInstr.lean ====
section
/-! SUPPORT. Facts about every instruction as syntax, one lemma per constructor. -/

namespace Sys2Proof.Laws

/-- The operand an instruction carries is of a mode its opcode admits (30_encoding.md R94). -/
def ModeIsLegal.Statement (i : Instr) : Prop := i.operand.mode ∈ i.opcode.legalModes

/-- An instruction is what its opcode, its flag and its operand name (30_encoding.md R82, R94, R104). -/
def Reassembles.Statement (i : Instr) : Prop := instrOf i.opcode i.flag i.operand = some i

theorem ModeIsLegal.nop (f : Bool) (m : ImplicitMode) : ModeIsLegal.Statement (.nop f m) := by
  cases m
  · exact List.mem_cons_self
  · exact List.mem_cons_of_mem _ List.mem_cons_self

theorem ModeIsLegal.ldaConst (f : Bool) (imm : Byte) : ModeIsLegal.Statement (.ldaConst f imm) := List.mem_cons_self

theorem ModeIsLegal.ldaMem (f : Bool) (addr : Addr) : ModeIsLegal.Statement (.ldaMem f addr) :=
  List.mem_cons_of_mem _ List.mem_cons_self

theorem ModeIsLegal.ldbConst (f : Bool) (imm : Byte) : ModeIsLegal.Statement (.ldbConst f imm) := List.mem_cons_self

theorem ModeIsLegal.ldbMem (f : Bool) (addr : Addr) : ModeIsLegal.Statement (.ldbMem f addr) :=
  List.mem_cons_of_mem _ List.mem_cons_self

theorem ModeIsLegal.sta (f : Bool) (addr : Addr) : ModeIsLegal.Statement (.sta f addr) := List.mem_cons_self

theorem ModeIsLegal.stb (f : Bool) (addr : Addr) : ModeIsLegal.Statement (.stb f addr) := List.mem_cons_self

theorem ModeIsLegal.stc (f : Bool) (addr : Addr) : ModeIsLegal.Statement (.stc f addr) := List.mem_cons_self

theorem ModeIsLegal.syscall (f : Bool) (m : ImplicitMode) : ModeIsLegal.Statement (.syscall f m) := by
  cases m
  · exact List.mem_cons_self
  · exact List.mem_cons_of_mem _ List.mem_cons_self

theorem ModeIsLegal.abc (m : ImplicitMode) : ModeIsLegal.Statement (.abc m) := by
  cases m
  · exact List.mem_cons_self
  · exact List.mem_cons_of_mem _ List.mem_cons_self

theorem ModeIsLegal.sub (m : ImplicitMode) : ModeIsLegal.Statement (.sub m) := by
  cases m
  · exact List.mem_cons_self
  · exact List.mem_cons_of_mem _ List.mem_cons_self

theorem ModeIsLegal.mul (m : ImplicitMode) : ModeIsLegal.Statement (.mul m) := by
  cases m
  · exact List.mem_cons_self
  · exact List.mem_cons_of_mem _ List.mem_cons_self

theorem ModeIsLegal.div (m : ImplicitMode) : ModeIsLegal.Statement (.div m) := by
  cases m
  · exact List.mem_cons_self
  · exact List.mem_cons_of_mem _ List.mem_cons_self

theorem ModeIsLegal.jmp (f : Bool) (addr : Addr) : ModeIsLegal.Statement (.jmp f addr) := List.mem_cons_self

theorem ModeIsLegal.jz (f : Bool) (addr : Addr) : ModeIsLegal.Statement (.jz f addr) := List.mem_cons_self

theorem ModeIsLegal.jnz (f : Bool) (addr : Addr) : ModeIsLegal.Statement (.jnz f addr) := List.mem_cons_self

theorem ModeIsLegal.cmpEq (m : ImplicitMode) : ModeIsLegal.Statement (.cmpEq m) := by
  cases m
  · exact List.mem_cons_self
  · exact List.mem_cons_of_mem _ List.mem_cons_self

theorem ModeIsLegal.cmpLt (m : ImplicitMode) : ModeIsLegal.Statement (.cmpLt m) := by
  cases m
  · exact List.mem_cons_self
  · exact List.mem_cons_of_mem _ List.mem_cons_self

theorem ModeIsLegal.cplA (m : ImplicitMode) : ModeIsLegal.Statement (.cplA m) := by
  cases m
  · exact List.mem_cons_self
  · exact List.mem_cons_of_mem _ List.mem_cons_self

theorem ModeIsLegal.cplB (m : ImplicitMode) : ModeIsLegal.Statement (.cplB m) := by
  cases m
  · exact List.mem_cons_self
  · exact List.mem_cons_of_mem _ List.mem_cons_self

theorem ModeIsLegal.andAB (f : Bool) (m : ImplicitMode) : ModeIsLegal.Statement (.andAB f m) := by
  cases m
  · exact List.mem_cons_self
  · exact List.mem_cons_of_mem _ List.mem_cons_self

theorem ModeIsLegal.xorAB (f : Bool) (m : ImplicitMode) : ModeIsLegal.Statement (.xorAB f m) := by
  cases m
  · exact List.mem_cons_self
  · exact List.mem_cons_of_mem _ List.mem_cons_self

theorem ModeIsLegal.orAB (f : Bool) (m : ImplicitMode) : ModeIsLegal.Statement (.orAB f m) := by
  cases m
  · exact List.mem_cons_self
  · exact List.mem_cons_of_mem _ List.mem_cons_self

theorem ModeIsLegal.hlt (f : Bool) (m : ImplicitMode) : ModeIsLegal.Statement (.hlt f m) := by
  cases m
  · exact List.mem_cons_self
  · exact List.mem_cons_of_mem _ List.mem_cons_self

theorem ModeIsLegal.panic (f : Bool) (m : ImplicitMode) : ModeIsLegal.Statement (.panic f m) := by
  cases m
  · exact List.mem_cons_self
  · exact List.mem_cons_of_mem _ List.mem_cons_self

theorem ModeIsLegal.mbnkrom (f : Bool) (m : ImplicitMode) : ModeIsLegal.Statement (.mbnkrom f m) := by
  cases m
  · exact List.mem_cons_self
  · exact List.mem_cons_of_mem _ List.mem_cons_self

theorem ModeIsLegal.mbnkram (f : Bool) (m : ImplicitMode) : ModeIsLegal.Statement (.mbnkram f m) := by
  cases m
  · exact List.mem_cons_self
  · exact List.mem_cons_of_mem _ List.mem_cons_self

theorem ModeIsLegal.zero (f : Bool) (m : ImplicitMode) : ModeIsLegal.Statement (.zero f m) := by
  cases m
  · exact List.mem_cons_self
  · exact List.mem_cons_of_mem _ List.mem_cons_self

theorem ModeIsLegal.ldlConst (f : Bool) (imm : Byte) : ModeIsLegal.Statement (.ldlConst f imm) := List.mem_cons_self

theorem ModeIsLegal.ldlMem (f : Bool) (addr : Addr) : ModeIsLegal.Statement (.ldlMem f addr) :=
  List.mem_cons_of_mem _ List.mem_cons_self

theorem ModeIsLegal.ldhConst (f : Bool) (imm : Byte) : ModeIsLegal.Statement (.ldhConst f imm) := List.mem_cons_self

theorem ModeIsLegal.ldhMem (f : Bool) (addr : Addr) : ModeIsLegal.Statement (.ldhMem f addr) :=
  List.mem_cons_of_mem _ List.mem_cons_self

theorem ModeIsLegal.cld (f : Bool) (m : ImplicitMode) : ModeIsLegal.Statement (.cld f m) := by
  cases m
  · exact List.mem_cons_self
  · exact List.mem_cons_of_mem _ List.mem_cons_self

theorem Reassembles.nop (f : Bool) (m : ImplicitMode) : Reassembles.Statement (.nop f m) := rfl

theorem Reassembles.ldaConst (f : Bool) (imm : Byte) : Reassembles.Statement (.ldaConst f imm) := rfl

theorem Reassembles.ldaMem (f : Bool) (addr : Addr) : Reassembles.Statement (.ldaMem f addr) := rfl

theorem Reassembles.ldbConst (f : Bool) (imm : Byte) : Reassembles.Statement (.ldbConst f imm) := rfl

theorem Reassembles.ldbMem (f : Bool) (addr : Addr) : Reassembles.Statement (.ldbMem f addr) := rfl

theorem Reassembles.sta (f : Bool) (addr : Addr) : Reassembles.Statement (.sta f addr) := rfl

theorem Reassembles.stb (f : Bool) (addr : Addr) : Reassembles.Statement (.stb f addr) := rfl

theorem Reassembles.stc (f : Bool) (addr : Addr) : Reassembles.Statement (.stc f addr) := rfl

theorem Reassembles.syscall (f : Bool) (m : ImplicitMode) : Reassembles.Statement (.syscall f m) := rfl

theorem Reassembles.abc (m : ImplicitMode) : Reassembles.Statement (.abc m) := rfl

theorem Reassembles.sub (m : ImplicitMode) : Reassembles.Statement (.sub m) := rfl

theorem Reassembles.mul (m : ImplicitMode) : Reassembles.Statement (.mul m) := rfl

theorem Reassembles.div (m : ImplicitMode) : Reassembles.Statement (.div m) := rfl

theorem Reassembles.jmp (f : Bool) (addr : Addr) : Reassembles.Statement (.jmp f addr) := rfl

theorem Reassembles.jz (f : Bool) (addr : Addr) : Reassembles.Statement (.jz f addr) := rfl

theorem Reassembles.jnz (f : Bool) (addr : Addr) : Reassembles.Statement (.jnz f addr) := rfl

theorem Reassembles.cmpEq (m : ImplicitMode) : Reassembles.Statement (.cmpEq m) := rfl

theorem Reassembles.cmpLt (m : ImplicitMode) : Reassembles.Statement (.cmpLt m) := rfl

theorem Reassembles.cplA (m : ImplicitMode) : Reassembles.Statement (.cplA m) := rfl

theorem Reassembles.cplB (m : ImplicitMode) : Reassembles.Statement (.cplB m) := rfl

theorem Reassembles.andAB (f : Bool) (m : ImplicitMode) : Reassembles.Statement (.andAB f m) := rfl

theorem Reassembles.xorAB (f : Bool) (m : ImplicitMode) : Reassembles.Statement (.xorAB f m) := rfl

theorem Reassembles.orAB (f : Bool) (m : ImplicitMode) : Reassembles.Statement (.orAB f m) := rfl

theorem Reassembles.hlt (f : Bool) (m : ImplicitMode) : Reassembles.Statement (.hlt f m) := rfl

theorem Reassembles.panic (f : Bool) (m : ImplicitMode) : Reassembles.Statement (.panic f m) := rfl

theorem Reassembles.mbnkrom (f : Bool) (m : ImplicitMode) : Reassembles.Statement (.mbnkrom f m) := rfl

theorem Reassembles.mbnkram (f : Bool) (m : ImplicitMode) : Reassembles.Statement (.mbnkram f m) := rfl

theorem Reassembles.zero (f : Bool) (m : ImplicitMode) : Reassembles.Statement (.zero f m) := rfl

theorem Reassembles.ldlConst (f : Bool) (imm : Byte) : Reassembles.Statement (.ldlConst f imm) := rfl

theorem Reassembles.ldlMem (f : Bool) (addr : Addr) : Reassembles.Statement (.ldlMem f addr) := rfl

theorem Reassembles.ldhConst (f : Bool) (imm : Byte) : Reassembles.Statement (.ldhConst f imm) := rfl

theorem Reassembles.ldhMem (f : Bool) (addr : Addr) : Reassembles.Statement (.ldhMem f addr) := rfl

theorem Reassembles.cld (f : Bool) (m : ImplicitMode) : Reassembles.Statement (.cld f m) := rfl

end Sys2Proof.Laws
end

