-- ==== Sys2Proof/Tests/Slice0.lean ====
section
/-! SUPPORT. Tests. Expected results are those of 95_test_vectors.md (the vector's id stands in a comment) or hand
calculation from the rule named. The last part has a witness for the hypotheses of every obligation. -/

namespace Sys2Proof.Tests

open Sys2Proof.Machine Sys2Proof.Safety

/-! ### Helpers -/

/-- The state an outcome leads to. -/
def after : Result → Option State
  | .next t => some t
  | .fault _ => none
  | .refused _ => none

/-- The default parameters with the vectors' PANIC_ADDR = 0030. -/
def cfg30 : Config := { Config.default with panicAddr := 0x0030#16 }

/-- The vectors' parameters with region rules. -/
def cfgWith (regions : List RegionRule) : Config := { cfg30 with regions := regions }

/-- The state after reset under given parameters, with bytes at an address and the PC there. -/
def boxed (cfg : Config) (addr : Addr) (bytes : List Byte) : State :=
  placeBytes bytes addr { State.resetWith cfg [] with pc := addr }

/-- The same under the vectors' parameters, at 0000. -/
def box (bytes : List Byte) : State := boxed cfg30 0x0000#16 bytes

/-- A rule that forbids reading a range. -/
def noRead (lo hi : Addr) : RegionRule := ⟨lo, hi, true, false, false⟩

/-- A rule that forbids writing a range. -/
def noWrite (lo hi : Addr) : RegionRule := ⟨lo, hi, false, true, false⟩

/-- A rule that forbids executing a range. -/
def noExec (lo hi : Addr) : RegionRule := ⟨lo, hi, false, false, true⟩

/-- What a vector shows of one step: a view of the state after it. -/
def shows {α : Type} (s : State) (view : State → α) : Option α := (after (step s)).map view

/-! ### Well-formedness: each check of R92 refuses an ill-formed table -/

theorem test_defaultTable_admitted : defaultIsaTable.admitted = true := by decide

/-- The default table with NOP's entry replaced by others. -/
def tableWithNop (es : List IsaEntry) : IsaTable := es ++ defaultIsaTable.tail

theorem test_wf_refuses_missing_opcode : (tableWithNop []).admitted = false := by decide

theorem test_wf_refuses_second_entry :
    (tableWithNop [⟨.nop, .short, [0x00#8]⟩, ⟨.nop, .long, [0x00#8, 0x55#8]⟩]).admitted = false := by decide

theorem test_wf_refuses_fragment_count : (tableWithNop [⟨.nop, .long, [0x00#8]⟩]).admitted = false := by decide

theorem test_wf_refuses_wide_frag0 : (tableWithNop [⟨.nop, .long, [0x08#8, 0x00#8]⟩]).admitted = false := by decide

theorem test_wf_refuses_shared_encoding : (tableWithNop [⟨.nop, .short, [0x01#8]⟩]).admitted = false := by decide

theorem test_wf_refuses_instr_without_entry : (Instr.nop false .null).wf (tableWithNop []) = false := by decide

theorem test_wf_refuses_instr_of_misfit_entry :
    (Instr.nop false .null).wf (tableWithNop [⟨.nop, .long, [0x00#8]⟩]) = false := by decide

/-- A table whose NOP has an Extra encoding. -/
def extraTable : IsaTable := tableWithNop [⟨.nop, .extra, [0x07#8, 0xAB#8, 0xCD#8]⟩]

theorem test_extraTable_admitted : extraTable.admitted = true := by decide

theorem test_extra_encoding_decodes :
    decode extraTable [0xEF#8, 0xAB#8, 0xCD#8, 0x11#8] = .ok (.nop true .register, [0x11#8]) := by decide

/-! ### Decoding: words written out from R81, R83, R94 and R95 -/

/-- The decoder under the default table. -/
def dec (bytes : List Byte) : Except Reject (Instr × List Byte) := decode defaultIsaTable bytes

theorem test_decode_nop : dec [0x40#8] = .ok (.nop false .null, []) := by decide
theorem test_decode_nop_register : dec [0x68#8] = .ok (.nop true .register, []) := by decide
theorem test_decode_ldaConst : dec [0x51#8, 0x1F#8] = .ok (.ldaConst false 0x1F#8, []) := by decide
theorem test_decode_ldaConst_flag : dec [0x71#8, 0x05#8] = .ok (.ldaConst true 0x05#8, []) := by decide
theorem test_decode_ldaMem : dec [0x59#8, 0x12#8, 0x34#8] = .ok (.ldaMem false 0x1234#16, []) := by decide
theorem test_decode_ldbConst : dec [0x52#8, 0x80#8] = .ok (.ldbConst false 0x80#8, []) := by decide
theorem test_decode_ldbMem : dec [0x5A#8, 0xFF#8, 0x01#8] = .ok (.ldbMem false 0xFF01#16, []) := by decide
theorem test_decode_sta : dec [0x5B#8, 0x02#8, 0x00#8] = .ok (.sta false 0x0200#16, []) := by decide
theorem test_decode_stb : dec [0x7C#8, 0x02#8, 0x00#8] = .ok (.stb true 0x0200#16, []) := by decide
theorem test_decode_stc : dec [0x5D#8, 0x01#8, 0x00#8] = .ok (.stc false 0x0100#16, []) := by decide
theorem test_decode_syscall : dec [0x46#8] = .ok (.syscall false .null, []) := by decide
theorem test_decode_abc : dec [0x4F#8] = .ok (.abc .register, []) := by decide
theorem test_decode_sub : dec [0x67#8] = .ok (.sub .null, []) := by decide
theorem test_decode_mul : dec [0x88#8, 0x00#8] = .ok (.mul .register, []) := by decide
theorem test_decode_div : dec [0xA0#8, 0x00#8] = .ok (.div .null, []) := by decide
theorem test_decode_jmp : dec [0x98#8, 0x01#8, 0x12#8, 0x34#8] = .ok (.jmp false 0x1234#16, []) := by decide
theorem test_decode_jz : dec [0x98#8, 0x02#8, 0x00#8, 0x40#8] = .ok (.jz false 0x0040#16, []) := by decide
theorem test_decode_jnz : dec [0xB8#8, 0x03#8, 0x00#8, 0x40#8] = .ok (.jnz true 0x0040#16, []) := by decide
theorem test_decode_cmpEq : dec [0x88#8, 0x04#8] = .ok (.cmpEq .register, []) := by decide
theorem test_decode_cmpLt : dec [0xA8#8, 0x04#8] = .ok (.cmpLt .register, []) := by decide
theorem test_decode_cplA : dec [0x80#8, 0x05#8] = .ok (.cplA .null, []) := by decide
theorem test_decode_cplB : dec [0xA8#8, 0x05#8] = .ok (.cplB .register, []) := by decide
theorem test_decode_and : dec [0x88#8, 0x06#8] = .ok (.andAB false .register, []) := by decide
theorem test_decode_xor : dec [0xA0#8, 0x07#8] = .ok (.xorAB true .null, []) := by decide
theorem test_decode_or : dec [0x80#8, 0x08#8] = .ok (.orAB false .null, []) := by decide
theorem test_decode_hlt : dec [0x80#8, 0x09#8] = .ok (.hlt false .null, []) := by decide
theorem test_decode_panic : dec [0x80#8, 0x0A#8] = .ok (.panic false .null, []) := by decide
theorem test_decode_mbnkrom : dec [0x80#8, 0x0B#8] = .ok (.mbnkrom false .null, []) := by decide
theorem test_decode_mbnkram : dec [0x80#8, 0x0C#8] = .ok (.mbnkram false .null, []) := by decide
theorem test_decode_zero : dec [0x80#8, 0x0D#8] = .ok (.zero false .null, []) := by decide
theorem test_decode_ldlConst : dec [0x90#8, 0x0E#8, 0x7F#8] = .ok (.ldlConst false 0x7F#8, []) := by decide
theorem test_decode_ldlMem : dec [0x98#8, 0x0E#8, 0x00#8, 0x05#8] = .ok (.ldlMem false 0x0005#16, []) := by decide
theorem test_decode_ldhConst : dec [0xB0#8, 0x0F#8, 0x7F#8] = .ok (.ldhConst true 0x7F#8, []) := by decide
theorem test_decode_ldhMem : dec [0x98#8, 0x0F#8, 0x00#8, 0x05#8] = .ok (.ldhMem false 0x0005#16, []) := by decide
theorem test_decode_cld : dec [0x88#8, 0x10#8] = .ok (.cld false .register, []) := by decide

theorem test_decode_leaves_rest : dec [0x46#8, 0x99#8] = .ok (.syscall false .null, [0x99#8]) := by decide

/-- E1 and E6: the stream of the source's example. -/
theorem test_decode_stream :
    decodeAll defaultIsaTable 3 [0x59#8, 0x00#8, 0x05#8, 0x80#8, 0x09#8, 0x80#8, 0x09#8] =
      .ok [.ldaMem false 0x0005#16, .hlt false .null, .hlt false .null] := by decide

theorem test_reject_sizeClassZero : dec [0x3F#8] = .error .sizeClassZero := by decide
theorem test_reject_extra : dec [0xD8#8, 0x00#8, 0x00#8, 0x12#8, 0x34#8] = .error .notFound := by decide
theorem test_reject_long_frag0 : dec [0x81#8, 0x00#8] = .error .notFound := by decide
theorem test_reject_past_cld : dec [0x80#8, 0x11#8] = .error .notFound := by decide
theorem test_reject_nop_constant : dec [0x50#8, 0x07#8] = .error .illegalAddressMode := by decide
theorem test_reject_lda_null : dec [0x41#8] = .error .illegalAddressMode := by decide
theorem test_reject_sta_constant : dec [0x53#8, 0x05#8] = .error .illegalAddressMode := by decide
theorem test_reject_jmp_constant : dec [0x90#8, 0x01#8, 0x05#8] = .error .illegalAddressMode := by decide
theorem test_reject_truncated : dec [0x59#8, 0x00#8] = .error .truncated := by decide

theorem test_tableWord_short : decodeTableWord 8 0x47 = some (.abc .null) := by decide
theorem test_tableWord_long : decodeTableWord 16 0x9803 = some (.jnz false 0x0000#16) := by decide

theorem test_withFetchWord :
    shows (State.reset.withFetchWord 16 0x800C) (fun t => (t.m, t.pc)) = some (1#1, 0x0002#16) := by decide

/-! ### The cycle (95_test_vectors.md, 2.1) -/

/-- V-D1 and V-X5. -/
theorem test_step_sizeClassZero :
    shows (box [0x00#8]) (fun t => (t.status, t.cause, t.pc, t.lrap, t.events)) =
      some (.fatal, .fatal .invalidOpcode, 0x0001#16, 0x0000#16,
        [⟨.fatal .invalidOpcode, .none, 0x0000#16⟩]) := by decide

/-- V-D4. -/
theorem test_step_extra :
    shows (box [0xD8#8, 0x00#8, 0x00#8, 0x12#8, 0x34#8]) (fun t => (t.cause, t.pc)) =
      some (.fatal .invalidOpcode, 0x0005#16) := by decide

/-- V-D9. -/
theorem test_step_illegalMode :
    shows (box [0x53#8, 0x05#8]) (fun t => (t.cause, t.pc)) =
      some (.fatal .illegalAddressMode, 0x0002#16) := by decide

/-- V-D13. -/
theorem test_step_wraps :
    shows (boxed cfg30 0xFFFF#16 [0x51#8, 0x2A#8]) (fun t => (t.a, t.pc)) = some (0x2A#8, 0x0001#16) := by decide

/-- V-D14. -/
theorem test_step_denied_operand :
    shows (boxed (cfgWith [noExec 0x0011#16 0x0011#16]) 0x0010#16 [0x59#8, 0x00#8, 0x05#8])
        (fun t => (t.a, t.lrap, t.pc, t.events)) =
      some (0x00#8, 0x0010#16, 0x0030#16, [⟨.trap .fetchViolation, .address 0x0011#16, 0x0010#16⟩]) := by decide

/-- V-D16. -/
theorem test_step_denied_before_lookup :
    shows (boxed (cfgWith [noExec 0x0013#16 0x0013#16]) 0x0010#16 [0xD8#8, 0x00#8, 0x00#8, 0x12#8, 0x34#8])
        (fun t => (t.status, t.lrap, t.pc)) =
      some (.running, 0x0010#16, 0x0030#16) := by decide

/-- V-D17. -/
theorem test_step_modes_independent :
    shows (boxed (cfgWith [noRead 0x0005#16 0x0005#16]) 0x0005#16 [0x40#8]) (fun t => (t.pc, t.events)) =
      some (0x0006#16, []) := by decide

/-- V-D18. -/
theorem test_step_inverted_bounds :
    shows { boxed (cfgWith [noWrite 0x0200#16 0x0100#16]) 0x0000#16 [0x5B#8, 0x01#8, 0x50#8] with a := 0x77#8 }
        (fun t => t.byteAt 0x0150#16) = some 0x77#8 := by decide

/-! ### Loads and stores (95_test_vectors.md, 2.2) -/

/-- V-L1. -/
theorem test_ldaConst : shows (box [0x51#8, 0x1F#8]) (fun t => (t.a, t.pc)) = some (0x1F#8, 0x0002#16) := by decide

/-- V-L12. -/
theorem test_ldaConst_capability :
    shows (boxed { cfg30 with regCaps := { RegCaps.full with a := ⟨true, false⟩ } } 0x0000#16 [0x51#8, 0x05#8])
        (fun t => (t.a, t.lrap, t.pc, t.events)) =
      some (0x00#8, 0x0000#16, 0x0030#16,
        [⟨.trap .capabilityViolation, .register (.reg8 .a), 0x0000#16⟩]) := by decide

/-- V-L4: a load of its own first byte. -/
theorem test_ldaMem :
    shows (boxed cfg30 0x0020#16 [0x59#8, 0x00#8, 0x20#8]) (fun t => (t.a, t.pc)) =
      some (0x59#8, 0x0023#16) := by decide

/-- V-L3. -/
theorem test_ldaMem_denied :
    shows { boxed (cfgWith [noRead 0x0100#16 0x0100#16]) 0x0000#16 [0x59#8, 0x01#8, 0x00#8] with a := 0x11#8 }
        (fun t => (t.a, t.lrap, t.pc, t.events)) =
      some (0x11#8, 0x0000#16, 0x0030#16, [⟨.trap .readViolation, .address 0x0100#16, 0x0000#16⟩]) := by decide

theorem test_ldbConst : shows (box [0x52#8, 0x07#8]) (fun t => (t.a, t.b)) = some (0x00#8, 0x07#8) := by decide

/-- V-L2. -/
theorem test_ldbMem :
    shows (box [0x5A#8, 0x00#8, 0x05#8, 0x00#8, 0x00#8, 0x2A#8]) (fun t => (t.b, t.pc)) =
      some (0x2A#8, 0x0003#16) := by decide

/-- V-L9: the last byte of memory. -/
theorem test_sta :
    shows { box [0x5B#8, 0xFF#8, 0xFF#8] with a := 0xEE#8 } (fun t => (t.byteAt 0xFFFF#16, t.pc)) =
      some (0xEE#8, 0x0003#16) := by decide

/-- V-L8. -/
theorem test_sta_denied :
    shows { boxed (cfgWith [noWrite 0x0200#16 0x02FF#16]) 0x0000#16 [0x5B#8, 0x02#8, 0x00#8] with a := 0x05#8 }
        (fun t => (t.byteAt 0x0200#16, t.lrap, t.pc, t.events)) =
      some (0x00#8, 0x0000#16, 0x0030#16, [⟨.trap .writeViolation, .address 0x0200#16, 0x0000#16⟩]) := by decide

/-- V-L6. -/
theorem test_stb :
    shows { box [0x5C#8, 0x02#8, 0x00#8] with a := 0x05#8, b := 0x09#8 } (fun t => t.byteAt 0x0200#16) =
      some 0x05#8 := by decide

/-- V-L6 with STORE_BY_NAME. -/
theorem test_stb_byName :
    shows { boxed { cfg30 with storeByName := true } 0x0000#16 [0x5C#8, 0x02#8, 0x00#8] with
        a := 0x05#8, b := 0x09#8 } (fun t => t.byteAt 0x0200#16) = some 0x09#8 := by decide

/-- V-L7. -/
theorem test_stc :
    shows { box [0x5D#8, 0x01#8, 0x00#8] with a := 0x05#8, c := 0x0C#8 } (fun t => t.byteAt 0x0100#16) =
      some 0x05#8 := by decide

/-- V-L7 with STORE_BY_NAME. -/
theorem test_stc_byName :
    shows { boxed { cfg30 with storeByName := true } 0x0000#16 [0x5D#8, 0x01#8, 0x00#8] with
        a := 0x05#8, c := 0x0C#8 } (fun t => t.byteAt 0x0100#16) = some 0x0C#8 := by decide

/-- V-L10. -/
theorem test_ldlConst :
    shows (box [0x90#8, 0x0E#8, 0x7F#8]) (fun t => (t.l, t.h, t.pc)) = some (0x7F#8, 0x00#8, 0x0003#16) := by decide

theorem test_ldlMem :
    shows (box [0x98#8, 0x0E#8, 0x00#8, 0x01#8]) (fun t => (t.l, t.h)) = some (0x0E#8, 0x00#8) := by decide

theorem test_ldhConst :
    shows (box [0x90#8, 0x0F#8, 0x7F#8]) (fun t => (t.l, t.h)) = some (0x00#8, 0x7F#8) := by decide

/-- V-L11. -/
theorem test_ldhMem :
    shows (box [0x98#8, 0x0F#8, 0x00#8, 0x05#8, 0x00#8, 0x3C#8]) (fun t => (t.h, t.pc)) =
      some (0x3C#8, 0x0004#16) := by decide

/-! ### Arithmetic and logic (95_test_vectors.md, 2.3) -/

/-- C and the PC after one ALU instruction at 0000 on two bytes. -/
def alu (x y : Byte) (bytes : List Byte) : Option (Byte × Addr) :=
  shows { box bytes with a := x, b := y } (fun t => (t.c, t.pc))

/-- V-A1. -/
theorem test_abc : alu 0x05#8 0x07#8 [0x4F#8] = some (0x0C#8, 0x0001#16) := by decide
/-- V-A2. -/
theorem test_abc_wraps : alu 0xC8#8 0x64#8 [0x4F#8] = some (0x2C#8, 0x0001#16) := by decide
/-- V-A3. -/
theorem test_sub_wraps : alu 0x05#8 0x07#8 [0x6F#8] = some (0xFE#8, 0x0001#16) := by decide
/-- V-A4. -/
theorem test_sub_zero : alu 0x00#8 0x00#8 [0x6F#8] = some (0x00#8, 0x0001#16) := by decide
/-- V-A7. -/
theorem test_mul : alu 0x06#8 0x07#8 [0x88#8, 0x00#8] = some (0x2A#8, 0x0002#16) := by decide
/-- V-A9. -/
theorem test_mul_wraps : alu 0xFF#8 0xFF#8 [0x88#8, 0x00#8] = some (0x01#8, 0x0002#16) := by decide
/-- V-A10. -/
theorem test_div : alu 0x64#8 0x07#8 [0xA8#8, 0x00#8] = some (0x0E#8, 0x0002#16) := by decide

/-- V-A12. -/
theorem test_div_by_zero :
    shows { boxed cfg30 0x0004#16 [0xA8#8, 0x00#8] with a := 0x07#8, c := 0x33#8 }
        (fun t => (t.c, t.lrap, t.pc, t.events)) =
      some (0x33#8, 0x0004#16, 0x0030#16, [⟨.trap .divideByZero, .none, 0x0004#16⟩]) := by decide

/-- V-A13. -/
theorem test_cmpEq : alu 0x03#8 0x03#8 [0x88#8, 0x04#8] = some (0x01#8, 0x0002#16) := by decide
/-- V-A14. -/
theorem test_cmpEq_differs : alu 0x03#8 0x04#8 [0x88#8, 0x04#8] = some (0x00#8, 0x0002#16) := by decide
/-- V-A15. -/
theorem test_cmpLt : alu 0x03#8 0x04#8 [0xA8#8, 0x04#8] = some (0x01#8, 0x0002#16) := by decide
/-- V-A17. -/
theorem test_cmpLt_unsigned : alu 0xFF#8 0x00#8 [0xA8#8, 0x04#8] = some (0x00#8, 0x0002#16) := by decide
/-- V-A18. -/
theorem test_cplA : alu 0x0F#8 0x55#8 [0x88#8, 0x05#8] = some (0xF0#8, 0x0002#16) := by decide
/-- V-A19. -/
theorem test_cplB : alu 0x0F#8 0x00#8 [0xA8#8, 0x05#8] = some (0xFF#8, 0x0002#16) := by decide
/-- V-A20. -/
theorem test_and : alu 0xF0#8 0x3C#8 [0x88#8, 0x06#8] = some (0x30#8, 0x0002#16) := by decide
/-- V-A21. -/
theorem test_xor : alu 0xF0#8 0x3C#8 [0x88#8, 0x07#8] = some (0xCC#8, 0x0002#16) := by decide
/-- V-A22. -/
theorem test_or : alu 0xF0#8 0x3C#8 [0x88#8, 0x08#8] = some (0xFC#8, 0x0002#16) := by decide

/-- V-A23. -/
theorem test_zero :
    shows { box [0x80#8, 0x0D#8] with a := 0x01#8, b := 0x02#8, c := 0x03#8, l := 0x04#8 }
        (fun t => (t.a, t.b, t.c, t.l)) = some (0x00#8, 0x00#8, 0x00#8, 0x04#8) := by decide

/-- V-A24. -/
theorem test_cld :
    shows { box [0x80#8, 0x10#8] with l := 0x12#8, h := 0x34#8, a := 0x01#8 } (fun t => (t.l, t.h, t.a)) =
      some (0x00#8, 0x00#8, 0x01#8) := by decide

/-! ### Control and system (95_test_vectors.md, 2.4, 2.5) -/

/-- V-C1. -/
theorem test_jmp : shows (box [0x98#8, 0x01#8, 0x12#8, 0x34#8]) State.pc = some 0x1234#16 := by decide
/-- V-C2. -/
theorem test_jz_taken : shows (box [0x98#8, 0x02#8, 0x00#8, 0x40#8]) State.pc = some 0x0040#16 := by decide
/-- V-C6: not taken, and the PC wraps. -/
theorem test_jz_not_taken :
    shows { boxed cfg30 0xFFFC#16 [0x98#8, 0x02#8, 0x12#8, 0x34#8] with c := 0x01#8 } State.pc =
      some 0x0000#16 := by decide
/-- V-C4. -/
theorem test_jnz_taken :
    shows { box [0x98#8, 0x03#8, 0x00#8, 0x40#8] with c := 0x01#8 } State.pc = some 0x0040#16 := by decide
/-- V-C5. -/
theorem test_jnz_not_taken : shows (box [0x98#8, 0x03#8, 0x00#8, 0x40#8]) State.pc = some 0x0004#16 := by decide
/-- V-C8, and the record of the stop (R203). -/
theorem test_hlt :
    shows (boxed cfg30 0x0008#16 [0x80#8, 0x09#8]) (fun t => (t.status, t.cause, t.pc, t.events)) =
      some (.halted, .halt, 0x000A#16, [⟨.halt, .none, 0x0008#16⟩]) := by decide
/-- V-C9. -/
theorem test_panic :
    shows (boxed cfg30 0x0004#16 [0x80#8, 0x0A#8]) (fun t => (t.lrap, t.pc, t.status, t.events)) =
      some (0x0006#16, 0x0030#16, .running, []) := by decide
/-- V-C10. -/
theorem test_panic_at_panicAddr :
    shows (boxed cfg30 0x0030#16 [0x80#8, 0x0A#8]) (fun t => (t.lrap, t.pc, t.status)) =
      some (0x0032#16, 0x0030#16, .running) := by decide
/-- V-S1. -/
theorem test_nop : step (box [0x40#8]) = .next { box [0x40#8] with pc := 0x0001#16 } := by rfl
/-- V-S2. -/
theorem test_syscall : step (box [0x46#8]) = .next { box [0x46#8] with pc := 0x0001#16 } := by rfl
/-- V-S3. -/
theorem test_mbnkrom : shows { box [0x80#8, 0x0B#8] with m := 1#1 } State.m = some 0#1 := by decide
/-- V-S4. -/
theorem test_mbnkram : shows (box [0x80#8, 0x0C#8]) State.m = some 1#1 := by decide

/-! ### Traps and stops (95_test_vectors.md, 2.6) -/

/-- V-X2. -/
theorem test_policy_halt :
    shows { boxed { cfg30 with policy := .halt } 0x0000#16 [0xA8#8, 0x00#8] with a := 0x07#8 }
        (fun t => (t.status, t.cause, t.pc, t.lrap)) =
      some (.fatal, .trap .divideByZero, 0x0002#16, 0x0000#16) := by decide

/-- V-X3. -/
theorem test_double_fault :
    shows (boxed cfg30 0x0030#16 [0xA8#8, 0x00#8]) (fun t => (t.status, t.cause, t.pc, t.lrap, t.events)) =
      some (.fatal, .fatal .doubleFault, 0x0032#16, 0x0000#16,
        [⟨.fatal .doubleFault, .inner .divideByZero, 0x0030#16⟩]) := by decide

/-- A stopped CPU takes no step (R34). -/
theorem test_stopped : step { box [0x40#8] with status := .halted, cause := .halt } = .fault .cpuStopped := by rfl

/-! ### Memory -/

/-- A byte 0x00 is not listed, so equal memories are equal listings. -/
theorem test_store_zero_unlists :
    ((State.reset.setByte 0x0005#16 0x2A#8).setByte 0x0005#16 0x00#8).mem = [] := by decide

theorem test_listing_sorted :
    ((State.reset.setByte 0x0009#16 0x01#8).setByte 0x0002#16 0x02#8).mem = [(2, 0x02#8), (9, 0x01#8)] := by decide

theorem test_wf_refuses_disorder : Memory.wf [(9, 0x01#8), (2, 0x02#8)] = false := by decide

theorem test_wf_refuses_listed_zero : Memory.wf [(9, 0x00#8)] = false := by decide

/-! ### Boot (95_test_vectors.md, 2.7) -/

/-- The file of V-BOOT1 with another stream and another magic byte. -/
def romFile (magic0 : Byte) (stream : List Byte) : List Byte :=
  magic0 :: [0x53#8, 0x45#8, 0x42#8, 0x49#8, 0x53#8, 0x00#8, 0x00#8, 0x01#8, 0x00#8, 0x08#8] ++
    [0x00#8, 0x00#8, 0x00#8, 0x00#8, 0x00#8, 0x00#8] ++ stream ++
    [0xf0#8, 0x19#8, 0x24#8, 0xe4#8, 0x0f#8, 0x9f#8, 0xb8#8, 0x97#8] ++
    [0xcb#8, 0xa7#8, 0x5e#8, 0x76#8, 0xa5#8, 0xf9#8, 0x2a#8, 0xe5#8] ++
    [0x12#8, 0x9f#8, 0x73#8, 0x25#8, 0xec#8, 0xf1#8, 0x13#8, 0x21#8] ++
    [0x3d#8, 0xd3#8, 0x54#8, 0x3c#8, 0xac#8, 0xc0#8, 0x3a#8, 0xe9#8]

/-- The file of V-BOOT1. -/
def romBoot1 : List Byte := romFile 0x2E#8 [0x80#8, 0x09#8]

/-- The state V-BOOT1 boots to. -/
def bootedBoot1 : State := State.resetWith Config.default [(0, 0x80#8), (1, 0x09#8)]

/-- V-BOOT1, its hash included. -/
theorem test_boot1 : boot Config.default romBoot1 = .ok bootedBoot1 := by decide +kernel

/-- V-BOOT1's first step. -/
theorem test_boot1_step :
    shows bootedBoot1 (fun t => (t.status, t.cause, t.pc)) = some (.halted, .halt, 0x0002#16) := by decide

/-- V-BOOT2: a flipped stream byte changes the hash. -/
theorem test_boot2 :
    boot Config.default (romFile 0x2E#8 [0x80#8, 0x08#8]) = .error .malformedRom := by decide +kernel

/-- V-BOOT2 without the hash check. -/
theorem test_boot2_unchecked :
    (boot { Config.default with verifyHash := false } (romFile 0x2E#8 [0x80#8, 0x08#8])).map
      (fun s => s.byteAt 0x0001#16) = .ok 0x08#8 := by decide +kernel

/-- V-BOOT3 and V-BOOT4. -/
theorem test_boot3_boot4 :
    boot Config.default (romBoot1.take 16) = .error .malformedRom ∧
    boot Config.default (romFile 0x2F#8 [0x80#8, 0x09#8]) = .error .malformedRom := by decide +kernel

/-- V-BOOT5. -/
theorem test_boot5 :
    boot { Config.default with regions := [noWrite 0x0000#16 0x0000#16] } romBoot1 =
      .error .memoryProtectionViolation := by decide +kernel

/-- The contents of V-BOOT1's file, and the file the writer makes of them. -/
def rom1 : Rom := ⟨0x00#8, 0x00#8, 0x01#8, 0x0000#16, 0x0000#16, 0x0000#16, [0x80#8, 0x09#8]⟩

theorem test_writeRom : writeRom Config.default rom1 = .ok romBoot1 := by decide +kernel

/-! ### Assembler (95_test_vectors.md, E1) -/

/-- E1: the labels count instructions. -/
theorem test_assemble_example :
    assemble [":init".toList, "LDA $05".toList, ":panic".toList, "HLT".toList, ":end".toList, "HLT".toList] =
      .ok ⟨[.ldaMem false 0x0005#16, .hlt false .null, .hlt false .null], 0, 1, 2⟩ := by decide

theorem test_assemble_missing_label : assemble [":init".toList, "HLT".toList] = .error .missingRequiredLabels := by
  decide

theorem test_assemble_unknown_label :
    assemble [":init".toList, ":panic".toList, ":end".toList, "JMP away ; never".toList] =
      .error .unknownLabelName := by decide

/-- The state after reset under region rules. -/
def ruled (regions : List RegionRule) : State := State.resetWith (cfgWith regions) []

/-- The state after reset under register capabilities. -/
def capped (caps : RegCaps) : State := State.resetWith { cfg30 with regCaps := caps } []

/-! ### Witnesses: the hypotheses of each obligation, met by one concrete state and operands

An obligation that holds of an admitted table alone has `test_defaultTable_admitted` and `test_extraTable_admitted`. -/

theorem witness_EncodeDecodeInverse :
    extraTable.admitted = true ∧
      decode extraTable [0xEF#8, 0xAB#8, 0xCD#8, 0x11#8] = .ok (.nop true .register, [0x11#8]) := by decide

/-- Two bytes that wrap at the top of memory: LDA 0x1F at FFFF. -/
theorem witness_StepRunsDecodedInstruction :
    (boxed cfg30 0xFFFF#16 [0x51#8, 0x1F#8]).status = .running ∧
      (boxed cfg30 0xFFFF#16 [0x51#8, 0x1F#8]).cfg.isaTable.admitted = true ∧
      Placed (.ldaConst false 0x1F#8) 0xFFFF#16 (boxed cfg30 0xFFFF#16 [0x51#8, 0x1F#8]) := by
  refine ⟨by decide, by decide, ?_⟩
  intro k byte h
  have he : encode (boxed cfg30 0xFFFF#16 [0x51#8, 0x1F#8]).cfg.isaTable (.ldaConst false 0x1F#8) =
      [0x51#8, 0x1F#8] := by decide
  rw [he] at h
  match k, h with
  | 0, h => cases h; decide
  | 1, h => cases h; decide

theorem witness_StepAnswersExactlyWhileRunning :
    State.reset.status = .running ∧ (stopHalted State.reset).status ≠ .running ∧
      (raiseFatal .invalidOpcode .none State.reset).status ≠ .running := by decide

/-- The byte before a denied one, the denied one, and a fetch that wraps. -/
theorem witness_FetchAdvancesThePc :
    permitted (cfgWith [noExec 0x0011#16 0x0011#16]).regions 0x0010#16 .exec = true ∧
      permitted (cfgWith [noExec 0x0011#16 0x0011#16]).regions 0x0011#16 .exec = false ∧
      (fetchInstr (boxed cfg30 0xFFFF#16 [0x51#8, 0x1F#8])).map (fun r => (r.1, r.2.pc)) =
        .ok ([0x51#8, 0x1F#8], 0x0001#16) := by decide

/-- The lowest and the highest byte of size class 0, and the lowest above it. -/
theorem witness_SizeClassZeroStops :
    (box [0x00#8]).status = .running ∧ permitted (box [0x00#8]).cfg.regions (box [0x00#8]).pc .exec = true ∧
      ((box [0x00#8]).byteAt (box [0x00#8]).pc).toNat < 0x40 ∧
      ((box [0x3F#8]).byteAt (box [0x3F#8]).pc).toNat < 0x40 ∧
      ¬ ((box [0x40#8]).byteAt (box [0x40#8]).pc).toNat < 0x40 := by decide

/-- V-D6 and V-D10: `80 11` names no opcode, `90 01 05` is JMP in a mode it does not admit. -/
theorem witness_RejectedEncodingStops :
    (box [0x80#8, 0x11#8]).status = .running ∧
      (fetchInstr { box [0x80#8, 0x11#8] with start := 0x0000#16 }).map Prod.fst =
        .ok (0x80#8 :: ([0x11#8] ++ [])) ∧
      sizeClassOf 0x80#8 = some .long ∧ [0x11#8].length + 1 = SizeClass.long.controlBytes ∧
      lookup cfg30.isaTable .long [frag0Of 0x80#8, 0x11#8] = none ∧
      (box [0x90#8, 0x01#8, 0x05#8]).status = .running ∧
      (fetchInstr { box [0x90#8, 0x01#8, 0x05#8] with start := 0x0000#16 }).map Prod.fst =
        .ok (0x90#8 :: ([0x01#8] ++ [0x05#8])) ∧
      sizeClassOf 0x90#8 = some .long ∧
      lookup cfg30.isaTable .long [frag0Of 0x90#8, 0x01#8] = some .jmp ∧
      addressModeOf 0x90#8 ∉ Opcode.jmp.legalModes := by decide

/-- The shortest and the longest Extra encoding, the second across the top of memory. -/
theorem witness_ExtraEncodingsStop :
    (box [0xC0#8]).status = .running ∧ cfg30.isaTable = defaultIsaTable ∧
      0xC0 ≤ ((box [0xC0#8]).byteAt 0x0000#16).toNat ∧
      3 = 3 + (addressModeOf ((box [0xC0#8]).byteAt 0x0000#16)).operandBytes ∧
      (∀ k, k < 3 → permitted cfg30.regions (0x0000#16 + BitVec.ofNat 16 k) .exec = true) ∧
      0xC0 ≤ ((boxed cfg30 0xFFFE#16 [0xFF#8]).byteAt 0xFFFE#16).toNat ∧
      5 = 3 + (addressModeOf ((boxed cfg30 0xFFFE#16 [0xFF#8]).byteAt 0xFFFE#16)).operandBytes ∧
      ∀ k, k < 5 → permitted cfg30.regions (0xFFFE#16 + BitVec.ofNat 16 k) .exec = true := by decide

/-- Control byte 0 denied (n = 0), V-D14 (n = 1), and the last byte of the longest encoding (n = 4). -/
theorem witness_FirstDeniedFetchTraps :
    ((ruled [noExec 0x0000#16 0x0000#16]).status = .running ∧
      permitted (ruled [noExec 0x0000#16 0x0000#16]).cfg.regions (0x0000#16 + BitVec.ofNat 16 0) .exec = false) ∧
    (
      let s := boxed (cfgWith [noExec 0x0011#16 0x0011#16]) 0x0010#16 [0x59#8, 0x00#8, 0x05#8]
      s.status = .running ∧ lengthOf (s.byteAt s.pc) = some 3 ∧ 1 < 3 ∧
        (∀ k, k < 1 → permitted s.cfg.regions (s.pc + BitVec.ofNat 16 k) .exec = true) ∧
        permitted s.cfg.regions (s.pc + BitVec.ofNat 16 1) .exec = false) ∧
    let s := boxed (cfgWith [noExec 0x0014#16 0x0014#16]) 0x0010#16 [0xD8#8, 0x00#8, 0x00#8, 0x12#8, 0x34#8]
    s.status = .running ∧ lengthOf (s.byteAt s.pc) = some 5 ∧ 4 < 5 ∧
      (∀ k, k < 4 → permitted s.cfg.regions (s.pc + BitVec.ofNat 16 k) .exec = true) ∧
      permitted s.cfg.regions (s.pc + BitVec.ofNat 16 4) .exec = false := by decide

/-- A state with a listed byte that meets the invariant, and a step of it that traps. -/
theorem witness_StepKeepsInvariant :
    Inv (boxed cfg30 0x0004#16 [0xA8#8]) ∧
      ∃ t, step (boxed cfg30 0x0004#16 [0xA8#8]) = .next t ∧ t.lrap = 0x0004#16 :=
  ⟨⟨by decide, trivial, fun h => absurd h (by decide)⟩, _, rfl, by decide⟩

/-- E3: a store into the protected range, at both of its ends, and outside at both. -/
theorem witness_WriteProtectedByteNeverChanges :
    WriteProtected (boxed (cfgWith [noWrite 0x0100#16 0x01FF#16]) 0x0000#16 [0x5B#8, 0x01#8, 0x00#8]) 0x0100#16 ∧
      WriteProtected (boxed (cfgWith [noWrite 0x0100#16 0x01FF#16]) 0x0000#16 [0x5B#8, 0x01#8, 0x00#8]) 0x01FF#16 ∧
      ¬ WriteProtected (State.resetWith (cfgWith [noWrite 0x0100#16 0x01FF#16]) []) 0x00FF#16 ∧
      ¬ WriteProtected (State.resetWith (cfgWith [noWrite 0x0100#16 0x01FF#16]) []) 0x0200#16 ∧
      ∃ t, runUntilStop 1 (boxed (cfgWith [noWrite 0x0100#16 0x01FF#16]) 0x0000#16 [0x5B#8, 0x01#8, 0x00#8]) =
        .next t :=
  ⟨by unfold WriteProtected; decide, by unfold WriteProtected; decide, by unfold WriteProtected; decide,
    by unfold WriteProtected; decide, _, rfl⟩

theorem witness_ConfigurationNeverChanges :
    ∃ t, runUntilStop 2 (box [0x40#8]) = .next t ∧ t.status = .fatal := ⟨_, rfl, by decide⟩

/-- A rule that hides one byte, and two states that differ in it. -/
theorem witness_HiddenByteIsNotLearned :
    Hidden (boxed (cfgWith [⟨0x0100#16, 0x0100#16, true, false, true⟩]) 0x0000#16 [0x59#8, 0x01#8, 0x00#8])
        0x0100#16 ∧
      SameButByte 0x0100#16
        (boxed (cfgWith [⟨0x0100#16, 0x0100#16, true, false, true⟩]) 0x0000#16 [0x59#8, 0x01#8, 0x00#8])
        ((boxed (cfgWith [⟨0x0100#16, 0x0100#16, true, false, true⟩]) 0x0000#16 [0x59#8, 0x01#8, 0x00#8]).setByte
          0x0100#16 0x77#8) :=
  ⟨by unfold Hidden; decide, rfl, rfl, rfl, rfl, rfl, rfl, rfl, rfl, rfl, rfl, rfl, rfl, rfl,
    fun _ h => (State.byteAt_setByte_other _ _ _ _ h).symm⟩

theorem witness_UnreadRegistersHaveNoEffect :
    SameButUnread (box [0x51#8, 0x1F#8])
      { box [0x51#8, 0x1F#8] with l := 0x01#8, h := 0x02#8, m := 1#1, lrap := 0x1234#16, start := 0x5678#16 } :=
  ⟨rfl, rfl, rfl, rfl, rfl, rfl, rfl, rfl, rfl⟩

/-- For each clause an instruction that makes the change, or one that traps. -/
theorem witness_OnlyNamedInstructionsWrite :
    (after (exec (.ldaConst false 0x01#8) State.reset)).map State.a = some 0x01#8 ∧
      (after (exec (.ldbConst false 0x01#8) State.reset)).map State.b = some 0x01#8 ∧
      (after (exec (.cplA .null) State.reset)).map State.c = some 0xFF#8 ∧
      (after (exec (.ldlConst false 0x01#8) State.reset)).map State.l = some 0x01#8 ∧
      (after (exec (.ldhConst false 0x01#8) State.reset)).map State.h = some 0x01#8 ∧
      (after (exec (.mbnkram false .null) State.reset)).map State.m = some 1#1 ∧
      (after (exec (.div .null) { box [] with start := 0x0004#16 })).map (fun t => (t.lrap, t.pc)) =
        some (0x0004#16, 0x0030#16) ∧
      (after (exec (.sta false 0x0005#16) { box [] with a := 0x01#8 })).map State.mem = some [(5, 0x01#8)] ∧
      (after (exec (.div .null) { box [] with start := 0x0030#16 })).map State.status = some .fatal := by decide

theorem witness_AtMostOneEventPerStep :
    shows (box [0x40#8]) (fun t => (t.events, t.status)) = some ([], .running) ∧
      shows (boxed cfg30 0x0004#16 [0xA8#8]) (fun t => (t.events, t.pc)) =
        some ([⟨.trap .divideByZero, .none, 0x0004#16⟩], 0x0030#16) ∧
      shows (box []) (fun t => (t.events, t.status)) =
        some ([⟨.fatal .invalidOpcode, .none, 0x0000#16⟩], .fatal) ∧
      shows (box [0x80#8, 0x09#8]) (fun t => (t.events, t.status)) =
        some ([⟨.halt, .none, 0x0000#16⟩], .halted) := by decide

/-- A load whose checks pass at the boundary of a rule, and one whose data access is denied. -/
theorem witness_ChecksPass :
    ChecksPass (.ldaMem false 0x00FF#16) (ruled [noRead 0x0100#16 0x0100#16]) ∧
      ¬ ChecksPass (.ldaMem false 0x0100#16) (ruled [noRead 0x0100#16 0x0100#16]) := by
  refine ⟨⟨by decide, by decide, fun m h => by simp at h, ?_⟩, fun h => ?_⟩
  · intro addr mode h
    cases h
    decide
  · exact absurd (h.2.2.2 0x0100#16 .read rfl) (by decide)

theorem witness_FaultsArePrecise :
    shows (box []) (fun t => decide (t.events ≠ (box []).events)) = some true := by decide

theorem witness_TrapEntryCases :
    (State.resetWith { cfg30 with policy := .halt } []).cfg.policy = .halt ∧
      ((box []).cfg.policy = .trap ∧ { box [] with start := 0x0030#16 }.start = (box []).cfg.panicAddr) ∧
      { box [] with start := 0x0031#16 }.start ≠ (box []).cfg.panicAddr := by decide

theorem witness_PanicIsNoFault :
    (box []).cfg.policy = .trap ∧ (box []).start ≠ (box []).cfg.panicAddr := by decide

/-- A first and a second failing read; a write that fails after reads that pass, and after a write that passes. -/
theorem witness_CapabilityCheckComesFirst :
    (
      let s := capped { RegCaps.full with a := ⟨false, true⟩ }
      (checkedReads s.cfg (.abc .null)).map CapReg.reg8 = [] ++ .reg8 .a :: [.reg8 .b] ∧
        (capOf s.cfg.regCaps (.reg8 .a)).readable = false) ∧
    (
      let s := capped { RegCaps.full with b := ⟨false, true⟩ }
      (checkedReads s.cfg (.abc .null)).map CapReg.reg8 = [.reg8 .a] ++ .reg8 .b :: [] ∧
        (∀ q ∈ [CapReg.reg8 .a], (capOf s.cfg.regCaps q).readable = true) ∧
        (capOf s.cfg.regCaps (.reg8 .b)).readable = false) ∧
    (
      let s := capped { RegCaps.full with c := ⟨true, false⟩ }
      checkedWrites (.abc .null) = [] ++ .reg8 .c :: [] ∧
        (∀ q ∈ (checkedReads s.cfg (.abc .null)).map CapReg.reg8, (capOf s.cfg.regCaps q).readable = true) ∧
        (capOf s.cfg.regCaps (.reg8 .c)).writable = false) ∧
    let s := capped { RegCaps.full with b := ⟨true, false⟩ }
    checkedWrites (.zero false .null) = [.reg8 .a] ++ .reg8 .b :: [.reg8 .c] ∧
      (∀ q ∈ (checkedReads s.cfg (.zero false .null)).map CapReg.reg8, (capOf s.cfg.regCaps q).readable = true) ∧
      (∀ q ∈ [CapReg.reg8 .a], (capOf s.cfg.regCaps q).writable = true) ∧
      (capOf s.cfg.regCaps (.reg8 .b)).writable = false := by decide

/-- Each bound of a rule, one address outside each, and inverted bounds. -/
theorem witness_PermissionTest :
    permitted [noWrite 0x0100#16 0x01FF#16] 0x00FF#16 .write = true ∧
      permitted [noWrite 0x0100#16 0x01FF#16] 0x0100#16 .write = false ∧
      permitted [noWrite 0x0100#16 0x01FF#16] 0x01FF#16 .write = false ∧
      permitted [noWrite 0x0100#16 0x01FF#16] 0x0200#16 .write = true ∧
      permitted [noWrite 0x0100#16 0x01FF#16] 0x0100#16 .read = true ∧
      (noWrite 0x0200#16 0x0100#16).highBound.toNat < (noWrite 0x0200#16 0x0100#16).lowBound.toNat := by decide

/-- The same rules in another order, one of them twice; and an address no rule covers. -/
theorem witness_PermissionIgnoresOrder :
    (∀ rule, rule ∈ [noRead 0x0000#16 0x0001#16, noExec 0x0002#16 0x0003#16] ↔
      rule ∈ [noExec 0x0002#16 0x0003#16, noRead 0x0000#16 0x0001#16, noExec 0x0002#16 0x0003#16]) ∧
    ∀ rule ∈ [noRead 0x0000#16 0x0001#16, noExec 0x0002#16 0x0003#16], covers rule 0x0004#16 = false := by
  refine ⟨fun rule => ?_, by decide⟩
  simp only [List.mem_cons, List.not_mem_nil, or_false]
  tauto

/-- The first and the last byte of memory, denied and permitted. -/
theorem witness_CheckedWriteStoresOrDenies :
    permitted (ruled [noWrite 0x0000#16 0x0000#16]).cfg.regions 0x0000#16 .write = false ∧
      permitted (ruled [noWrite 0x0000#16 0x0000#16]).cfg.regions 0xFFFF#16 .write = true := by decide

theorem witness_StoreIsSeenByFetchAndLoad :
    memWrite State.reset 0xFFFF#16 0x77#8 .write = some (State.reset.setByte 0xFFFF#16 0x77#8) ∧
      permitted State.reset.cfg.regions 0xFFFF#16 .exec = true ∧
      permitted State.reset.cfg.regions 0xFFFF#16 .read = true := by decide

/-- The reset state meets the hypotheses of every statement in which an instruction completes: every register may be
read and written, and every access is permitted. -/
theorem witness_completion :
    State.reset.cfg.regCaps = RegCaps.full ∧ RegCaps.full.a.readable = true ∧ RegCaps.full.a.writable = true ∧
      RegCaps.full.b.readable = true ∧ RegCaps.full.b.writable = true ∧ RegCaps.full.c.readable = true ∧
      RegCaps.full.c.writable = true ∧ RegCaps.full.l.writable = true ∧ RegCaps.full.h.writable = true ∧
      RegCaps.full.m.writable = true ∧ permitted State.reset.cfg.regions 0x0000#16 .read = true ∧
      permitted State.reset.cfg.regions 0xFFFF#16 .read = true ∧
      permitted State.reset.cfg.regions 0xFFFF#16 .write = true := by decide

/-- Both settings of STORE_BY_NAME. -/
theorem witness_StoresComplete :
    State.reset.cfg.storeByName = false ∧ (boxed { cfg30 with storeByName := true } 0x0000#16 []).cfg.storeByName = true ∧
      cfg30.regCaps.a.readable = true ∧ cfg30.regCaps.b.readable = true ∧ cfg30.regCaps.c.readable = true ∧
      permitted cfg30.regions 0xFFFF#16 .write = true := by decide

theorem witness_DeniedLoadsTrap :
    permitted (ruled [noRead 0x0100#16 0x0100#16]).cfg.regions 0x0100#16 .read = false ∧
      (ruled [noRead 0x0100#16 0x0100#16]).cfg.regCaps = RegCaps.full := by decide

/-- Each setting of STORE_BY_NAME, with the registers that are not stored unreadable. -/
theorem witness_DeniedStoresTrap :
    (
      let s := State.resetWith { cfgWith [noWrite 0x0200#16 0x02FF#16] with
        regCaps := { RegCaps.full with b := ⟨false, true⟩, c := ⟨false, true⟩ } } []
      permitted s.cfg.regions 0x0200#16 .write = false ∧ s.cfg.storeByName = false ∧
        s.cfg.regCaps.a.readable = true) ∧
    let s := State.resetWith { cfgWith [noWrite 0x0200#16 0x02FF#16] with
      storeByName := true, regCaps := { RegCaps.full with a := ⟨false, true⟩ } } []
    permitted s.cfg.regions 0x02FF#16 .write = false ∧ s.cfg.storeByName = true ∧
      s.cfg.regCaps.b.readable = true ∧ s.cfg.regCaps.c.readable = true := by decide

/-- B = 0 for the trap and B = 1 for the quotient. -/
theorem witness_DivideByZeroTraps :
    (box []).b = 0x00#8 ∧ { box [] with b := 0x01#8 }.b ≠ 0x00#8 ∧ (box []).cfg.regCaps = RegCaps.full := by decide

/-- Each clause of the comparisons, at the values where they meet. A state under the vectors' parameters has full
capabilities. -/
theorem witness_ComparesComplete :
    (box []).cfg.regCaps = RegCaps.full ∧
      { box [] with a := 0x04#8, b := 0x04#8 }.a.toNat = { box [] with a := 0x04#8, b := 0x04#8 }.b.toNat ∧
      { box [] with a := 0x04#8, b := 0x05#8 }.a.toNat ≠ { box [] with a := 0x04#8, b := 0x05#8 }.b.toNat ∧
      { box [] with a := 0x04#8, b := 0x05#8 }.a.toNat < { box [] with a := 0x04#8, b := 0x05#8 }.b.toNat ∧
      { box [] with a := 0x04#8, b := 0x04#8 }.b.toNat ≤ { box [] with a := 0x04#8, b := 0x04#8 }.a.toNat := by
  decide

/-- C zero and not. -/
theorem witness_JumpsComplete :
    (box []).c = 0x00#8 ∧ { box [] with c := 0x01#8 }.c ≠ 0x00#8 ∧ (box []).cfg.regCaps.c.readable = true := by
  decide

/-- The panic address and another denied target, C zero and not, both policies. -/
theorem witness_JumpTargetIsCheckedAtTheNextFetch :
    (ruled [noExec 0x0030#16 0x0040#16]).status = .running ∧
      permitted (ruled [noExec 0x0030#16 0x0040#16]).cfg.regions 0x0040#16 .exec = false ∧
      permitted (ruled [noExec 0x0030#16 0x0040#16]).cfg.regions 0x0030#16 .exec = false ∧
      (ruled [noExec 0x0030#16 0x0040#16]).cfg.regCaps.c.readable = true ∧
      (ruled [noExec 0x0030#16 0x0040#16]).c = 0x00#8 ∧
      { ruled [noExec 0x0030#16 0x0040#16] with c := 0x01#8 }.c ≠ 0x00#8 ∧
      (ruled [noExec 0x0030#16 0x0040#16]).cfg.policy = .trap ∧
      0x0030#16 = (ruled [noExec 0x0030#16 0x0040#16]).cfg.panicAddr ∧
      0x0040#16 ≠ (ruled [noExec 0x0030#16 0x0040#16]).cfg.panicAddr ∧
      (State.resetWith { cfgWith [noExec 0x0030#16 0x0040#16] with policy := .halt } []).cfg.policy = .halt := by
  decide

theorem witness_BootLeavesResetState : ∃ s, boot Config.default romBoot1 = .ok s := ⟨_, test_boot1⟩

theorem witness_WrittenRomBoots :
    Config.default.isaTable.admitted = true ∧ writeRom Config.default rom1 = .ok romBoot1 ∧
      ∀ addr : Addr, addr.toNat < rom1.stream.length → permitted Config.default.regions addr .write = true :=
  ⟨by decide, test_writeRom, fun _ _ => rfl⟩

theorem witness_DeniedImageWriteFailsBoot :
    Config.default.isaTable.admitted = true ∧
      readRom { Config.default with regions := [noWrite 0x0001#16 0x0001#16] } romBoot1 = .ok rom1 ∧
      (0x0001#16 : Addr).toNat < rom1.stream.length ∧
      permitted [noWrite 0x0001#16 0x0001#16] 0x0001#16 .write = false := by decide +kernel

/-- One file for each clause: V-BOOT3, V-BOOT4, a size of 5, E4, V-BOOT2. -/
theorem witness_MalformedRomsAreRejected :
    (romBoot1.take 16).length < 17 ∧
      (romFile 0x2F#8 [0x80#8, 0x09#8]).take 6 ≠ [0x2E#8, 0x53#8, 0x45#8, 0x42#8, 0x49#8, 0x53#8] ∧
      (field16 (romBoot1.set 10 0x05#8) 9).toNat < 6 ∧
      (romBoot1.set 10 0x09#8).length ≠ 11 + (field16 (romBoot1.set 10 0x09#8) 9).toNat + 32 ∧
      (Config.default.verifyHash = true ∧
        (field16 (romFile 0x2E#8 [0x80#8, 0x08#8]) 9).toNat ≤ Config.default.maxRomSize.toNat ∧
        sha256 (((romFile 0x2E#8 [0x80#8, 0x08#8]).drop 11).take 8) ≠
          (romFile 0x2E#8 [0x80#8, 0x08#8]).drop (11 + 8)) := by decide +kernel

end Sys2Proof.Tests
end

section
/-! SUPPORT. What the instructions have in common, said once: every instruction is its capability check, then at most
one further check (the divisor or the data access), then an effect that cannot fail (60_exceptions.md R210, checks 7 to
9). With it the equations of a step and the induction over a run. -/

namespace Sys2Proof.Proofs

open Sys2Proof.Machine Sys2Proof.Safety

/-- The fault of the first check that fails once the capability check has passed: the divisor of DIV, the data access
(60_exceptions.md R210, checks 8 and 9). -/
def laterFault (s : State) : Instr → Option (TrapCause × Info)
  | .div _ => if isZero s.b then some (.divideByZero, .none) else none
  | .ldaMem _ addr | .ldbMem _ addr | .ldlMem _ addr | .ldhMem _ addr =>
    if permitted s.cfg.regions addr .read then none else some (.readViolation, .address addr)
  | .sta _ addr | .stb _ addr | .stc _ addr =>
    if permitted s.cfg.regions addr .write then none else some (.writeViolation, .address addr)
  | _ => none

/-- What an instruction does when all its checks pass. -/
def completed (s : State) : Instr → State
  | .nop _ _ | .syscall _ _ => s
  | .ldaConst _ imm => s.setReg .a imm
  | .ldbConst _ imm => s.setReg .b imm
  | .ldlConst _ imm => s.setReg .l imm
  | .ldhConst _ imm => s.setReg .h imm
  | .ldaMem _ addr => s.setReg .a (s.byteAt addr)
  | .ldbMem _ addr => s.setReg .b (s.byteAt addr)
  | .ldlMem _ addr => s.setReg .l (s.byteAt addr)
  | .ldhMem _ addr => s.setReg .h (s.byteAt addr)
  | .sta _ addr => s.setByte addr s.a
  | .stb _ addr => s.setByte addr (s.reg (storeSource s .b))
  | .stc _ addr => s.setByte addr (s.reg (storeSource s .c))
  | .abc _ => s.setReg .c (addBytes s.a s.b)
  | .sub _ => s.setReg .c (subBytes s.a s.b)
  | .mul _ => s.setReg .c (mulBytes s.a s.b)
  | .div _ => s.setReg .c (divBytes s.a s.b)
  | .cmpEq _ => s.setReg .c (equalByte s.a s.b)
  | .cmpLt _ => s.setReg .c (lessByte s.a s.b)
  | .cplA _ => s.setReg .c (notByte s.a)
  | .cplB _ => s.setReg .c (notByte s.b)
  | .andAB _ _ => s.setReg .c (andBytes s.a s.b)
  | .xorAB _ _ => s.setReg .c (xorBytes s.a s.b)
  | .orAB _ _ => s.setReg .c (orBytes s.a s.b)
  | .zero _ _ => ((s.setReg .a 0x00#8).setReg .b 0x00#8).setReg .c 0x00#8
  | .cld _ _ => (s.setReg .l 0x00#8).setReg .h 0x00#8
  | .jmp _ addr => s.setPc addr
  | .jz _ addr => jumpIf (isZero s.c) addr s
  | .jnz _ addr => jumpIf (!isZero s.c) addr s
  | .hlt _ _ => stopHalted s
  | .panic _ _ => (s.setLrap s.pc).setPc s.cfg.panicAddr
  | .mbnkrom _ _ => s.setM 0#1
  | .mbnkram _ _ => s.setM 1#1

/-- The outcome of an instruction whose capability check has passed. -/
def afterCaps (i : Instr) (s : State) : Result :=
  match laterFault s i with
  | some (c, info) => .next (raiseTrap c info s)
  | none => .next (completed s i)

theorem afterCaps_of_fault {i : Instr} {s : State} {c : TrapCause} {info : Info}
    (h : laterFault s i = some (c, info)) : afterCaps i s = .next (raiseTrap c info s) := by
  rw [afterCaps, h]

theorem afterCaps_of_none {i : Instr} {s : State} (h : laterFault s i = none) :
    afterCaps i s = .next (completed s i) := by
  rw [afterCaps, h]

/-- The capability check looks at the state an effect runs in, so only that state's outcome counts. -/
theorem withCaps_congr {reads writes : List CapReg} {s : State} {effect effect' : State → Result}
    (h : effect s = effect' s) : withCaps reads writes s effect = withCaps reads writes s effect' := by
  rw [withCaps, withCaps, h]

/-- A memory load past its capability check, for whichever instruction `i` it is. -/
theorem loadMem_eq_withCaps {i : Instr} {r : Reg8} {addr : Addr} {s : State}
    (hf : laterFault s i =
      if permitted s.cfg.regions addr .read then none else some (.readViolation, .address addr))
    (hc : completed s i = s.setReg r (s.byteAt addr)) :
    loadMem r addr s = withCaps [] [.reg8 r] s (afterCaps i) := by
  refine withCaps_congr ?_
  rcases memRead_cases s addr .read with ⟨hp, hm⟩ | ⟨hp, hm⟩
  · rw [if_pos hp] at hf
    rw [afterCaps_of_none hf, hc, hm]
  · rw [if_neg (by simp [hp])] at hf
    rw [afterCaps_of_fault hf, hm]

/-- A store past its capability check, for whichever instruction `i` it is. -/
theorem storeMem_eq_withCaps {i : Instr} {r : Reg8} {addr : Addr} {s : State}
    (hf : laterFault s i =
      if permitted s.cfg.regions addr .write then none else some (.writeViolation, .address addr))
    (hc : completed s i = s.setByte addr (s.reg r)) :
    storeMem r addr s = withCaps [.reg8 r] [] s (afterCaps i) := by
  refine withCaps_congr ?_
  rcases memWrite_cases s addr (s.reg r) .write with ⟨hp, hm⟩ | ⟨hp, hm⟩
  · rw [if_pos hp] at hf
    rw [afterCaps_of_none hf, hc, hm]
  · rw [if_neg (by simp [hp])] at hf
    rw [afterCaps_of_fault hf, hm]

theorem execDiv_eq_withCaps (m : ImplicitMode) (s : State) :
    execDiv m s = withCaps [.reg8 .a, .reg8 .b] [.reg8 .c] s (afterCaps (.div m)) := by
  refine withCaps_congr ?_
  by_cases hz : isZero s.b = true
  · have hf : laterFault s (.div m) = some (.divideByZero, .none) := if_pos hz
    rw [afterCaps_of_fault hf, if_pos hz]
  · have hf : laterFault s (.div m) = none := if_neg hz
    rw [afterCaps_of_none hf, if_neg hz, completed]

/-- Every instruction begins with the capability check of the registers it reads and writes (10_state.md R22, R27), and
nothing of it happens before. -/
theorem exec_eq_withCaps (i : Instr) (s : State) :
    exec i s = withCaps ((checkedReads s.cfg i).map .reg8) (checkedWrites i) s (afterCaps i) := by
  cases i with
  | ldaMem f addr | ldbMem f addr | ldlMem f addr | ldhMem f addr => exact loadMem_eq_withCaps rfl rfl
  | sta f addr | stb f addr | stc f addr => exact storeMem_eq_withCaps rfl rfl
  | div m => exact execDiv_eq_withCaps m s
  | _ => rfl

/-- An instruction takes its full effect, or traps and does nothing else. -/
theorem exec_cases (i : Instr) (s : State) :
    exec i s = .next (completed s i) ∨ ∃ c info, exec i s = .next (raiseTrap c info s) := by
  rw [exec_eq_withCaps]
  rcases withCaps_cases ((checkedReads s.cfg i).map .reg8) (checkedWrites i) s (afterCaps i) with
    ⟨-, h⟩ | ⟨r, -, h⟩
  · rw [h]
    cases hf : laterFault s i with
    | none => exact .inl (afterCaps_of_none hf)
    | some fault => exact .inr ⟨_, _, afterCaps_of_fault hf⟩
  · exact .inr ⟨_, _, h⟩

/-- The same, read from a given next state. -/
theorem exec_next_cases {i : Instr} {s t : State} (h : exec i s = .next t) :
    t = completed s i ∨ ∃ c info, t = raiseTrap c info s := by
  rcases exec_cases i s with hdone | ⟨c, info, htrap⟩
  · rw [hdone] at h
    cases h
    exact .inl rfl
  · rw [htrap] at h
    cases h
    exact .inr ⟨c, info, rfl⟩

/-- A jump writes the PC alone. -/
theorem jumpIf_eq (taken : Bool) (target : Addr) (s : State) :
    jumpIf taken target s = s.setPc (if taken then target else s.pc) := by
  cases taken <;> rfl

/-- No instruction changes `start` or a parameter (10_state.md R31). -/
theorem exec_keeps_start_cfg {i : Instr} {s t : State} (h : exec i s = .next t) :
    t.start = s.start ∧ t.cfg = s.cfg := by
  rcases exec_next_cases h with rfl | ⟨c, info, rfl⟩
  · cases i with
    | jz f addr | jnz f addr => simp [completed, jumpIf_eq]
    | _ => exact ⟨rfl, rfl⟩
  · obtain ⟨-, -, -, -, -, -, -, hstart, hcfg⟩ := raiseTrap_frame c info s
    exact ⟨hstart, hcfg⟩

/-! ### A step and a run -/

theorem step_of_fetchDecode_error {s t : State} (hs : s.status = .running) (h : fetchDecode s = .error t) :
    step s = .next t := by
  simp [step, hs, h]

theorem step_of_fetchDecode_ok {s u : State} {i : Instr} (hs : s.status = .running)
    (h : fetchDecode s = .ok (i, u)) : step s = exec i u := by
  simp [step, hs, h]

theorem step_of_stopped {s : State} (hs : s.status ≠ .running) : step s = .fault .cpuStopped := by
  cases h : s.status with
  | running => exact absurd h hs
  | halted => simp [step, h]
  | fatal => simp [step, h]

/-- What every step keeps holds of every state a run answers. -/
theorem runUntilStop_keeps {P : State → Prop} (hstep : ∀ s t, P s → step s = .next t → P t) {k : Nat}
    {s t : State} (hs : P s) (h : runUntilStop k s = .next t) : P t := by
  induction k generalizing s with
  | zero =>
    cases h
    exact hs
  | succ k ih =>
    unfold runUntilStop at h
    split at h
    · split at h
      next u hu => exact ih (hstep _ _ hs hu) h
      · cases h
      · cases h
    · cases h
      exact hs
    · cases h
      exact hs

end Sys2Proof.Proofs
end

section
/-! SUPPORT. Two states that differ in L, H, M and LRAP alone, inside a step: the fetch stages and every instruction
treat them alike (10_state.md R22 to R25). -/

namespace Sys2Proof.Proofs

open Sys2Proof.Machine Sys2Proof.Safety

/-- The state with other values of the registers no instruction reads. -/
def withUnread (s : State) (l h : Byte) (m : Bit) (lrap : Addr) : State :=
  { s with l := l, h := h, m := m, lrap := lrap }

/-- The second state is the first one with other values of L, H, M and LRAP. Inside a step this is what is left of
`SameButUnread`, because the step has set `start`, which a trap does read. -/
def AgreeInStep (s t : State) : Prop := ∃ l h m lrap, t = withUnread s l h m lrap

theorem AgreeInStep.sameButUnread {s t : State} (h : AgreeInStep s t) : SameButUnread s t := by
  obtain ⟨l, h, m, lrap, rfl⟩ := h
  exact ⟨rfl, rfl, rfl, rfl, rfl, rfl, rfl, rfl, rfl⟩

theorem AgreeInStep.pc_eq {s t : State} (h : AgreeInStep s t) : s.pc = t.pc := by
  obtain ⟨-, -, -, hpc, -⟩ := h.sameButUnread
  exact hpc

theorem AgreeInStep.cfg_eq {s t : State} (h : AgreeInStep s t) : s.cfg = t.cfg := by
  obtain ⟨-, -, -, -, -, -, -, -, hcfg⟩ := h.sameButUnread
  exact hcfg

/-- Setting `start` from the PC, as every step begins (30_encoding.md R97), leaves no trace of its old value. -/
theorem SameButUnread.agree_setStart {s t : State} (h : SameButUnread s t) :
    AgreeInStep (s.setStart s.pc) (t.setStart t.pc) := by
  obtain ⟨ha, hb, hc, hpc, hmem, hstatus, hcause, hevents, hcfg⟩ := h
  refine ⟨t.l, t.h, t.m, t.lrap, ?_⟩
  simp only [State.setStart, withUnread, ha, hb, hc, hpc, hmem, hstatus, hcause, hevents, hcfg]

/-! ### The operations on agreeing states -/

variable {s t : State}

theorem AgreeInStep.start_eq (h : AgreeInStep s t) : s.start = t.start := by
  obtain ⟨l, h, m, lrap, rfl⟩ := h
  rfl

theorem AgreeInStep.memRead_eq (h : AgreeInStep s t) (addr : Addr) (mode : AccessMode) :
    memRead s addr mode = memRead t addr mode := by
  obtain ⟨l, h, m, lrap, rfl⟩ := h
  rfl

theorem AgreeInStep.setLrap (h : AgreeInStep s t) (v : Addr) : AgreeInStep (s.setLrap v) (t.setLrap v) := by
  obtain ⟨l, h, m, lrap, rfl⟩ := h
  exact ⟨_, _, _, _, rfl⟩

theorem AgreeInStep.setPc (h : AgreeInStep s t) (v : Addr) : AgreeInStep (s.setPc v) (t.setPc v) := by
  obtain ⟨l, h, m, lrap, rfl⟩ := h
  exact ⟨_, _, _, _, rfl⟩

theorem AgreeInStep.setByte (h : AgreeInStep s t) (addr : Addr) (v : Byte) :
    AgreeInStep (s.setByte addr v) (t.setByte addr v) := by
  obtain ⟨l, h, m, lrap, rfl⟩ := h
  exact ⟨_, _, _, _, rfl⟩

theorem AgreeInStep.stop (h : AgreeInStep s t) (status : RunStatus) (cause : StopCause) :
    AgreeInStep (s.stop status cause) (t.stop status cause) := by
  obtain ⟨l, h, m, lrap, rfl⟩ := h
  exact ⟨_, _, _, _, rfl⟩

theorem AgreeInStep.emit (h : AgreeInStep s t) (cause : StopCause) (info : Info) :
    AgreeInStep (s.emit cause info) (t.emit cause info) := by
  obtain ⟨l, h, m, lrap, rfl⟩ := h
  exact ⟨_, _, _, _, rfl⟩

theorem AgreeInStep.jumpIf (h : AgreeInStep s t) (taken : Bool) (target : Addr) :
    AgreeInStep (jumpIf taken target s) (jumpIf taken target t) := by
  cases taken
  · exact h
  · exact h.setPc target

theorem AgreeInStep.raiseFatal (h : AgreeInStep s t) (c : FatalCause) (info : Info) :
    AgreeInStep (raiseFatal c info s) (raiseFatal c info t) :=
  (h.stop _ _).emit _ _

/-- A trap reads the policy, `start` and the panic address, in which the states agree. -/
theorem AgreeInStep.raiseTrap (h : AgreeInStep s t) (c : TrapCause) (info : Info) :
    AgreeInStep (raiseTrap c info s) (raiseTrap c info t) := by
  unfold Machine.raiseTrap
  rw [← h.cfg_eq, ← h.start_eq]
  cases s.cfg.policy with
  | halt => exact (h.stop _ _).emit _ _
  | trap =>
    by_cases hs : s.start = s.cfg.panicAddr
    · simpa only [if_pos hs] using h.raiseFatal _ _
    · simpa only [if_neg hs] using ((h.setLrap _).setPc _).emit _ _

/-- STB and STC store A or the register of their name (40_load_store.md R125), so they store the same byte when the
states have the same byte there. -/
theorem AgreeInStep.stored_eq (h : AgreeInStep s t) {r : Reg8} (hr : s.reg r = t.reg r) :
    s.reg (storeSource s r) = t.reg (storeSource t r) := by
  have ha : s.reg .a = t.reg .a := h.sameButUnread.1
  unfold storeSource
  rw [← h.cfg_eq]
  cases s.cfg.storeByName
  · exact ha
  · exact hr

/-! ### Instructions -/

theorem AgreeInStep.laterFault_eq (h : AgreeInStep s t) (i : Instr) : laterFault s i = laterFault t i := by
  obtain ⟨l, h, m, lrap, rfl⟩ := h
  cases i <;> rfl

theorem completed_agree (h : AgreeInStep s t) (i : Instr) : AgreeInStep (completed s i) (completed t i) := by
  obtain ⟨-, hb, hc, -⟩ := h.sameButUnread
  cases i with
  | stb f addr => simpa only [completed, h.stored_eq (r := .b) hb] using h.setByte _ _
  | stc f addr => simpa only [completed, h.stored_eq (r := .c) hc] using h.setByte _ _
  | jz f addr | jnz f addr => simpa only [completed, hc] using h.jumpIf _ _
  | _ =>
    obtain ⟨l, h, m, lrap, rfl⟩ := h
    exact ⟨_, _, _, _, rfl⟩

theorem afterCaps_agree (h : AgreeInStep s t) (i : Instr) :
    Related AgreeInStep (afterCaps i s) (afterCaps i t) := by
  cases hf : laterFault s i with
  | none =>
    rw [afterCaps_of_none hf, afterCaps_of_none (h.laterFault_eq i ▸ hf)]
    exact completed_agree h i
  | some fault =>
    rw [afterCaps_of_fault hf, afterCaps_of_fault (h.laterFault_eq i ▸ hf)]
    exact h.raiseTrap _ _

/-- An instruction does the same in states that agree: its checks and its effect read none of L, H, M and LRAP. -/
theorem exec_agree (h : AgreeInStep s t) (i : Instr) : Related AgreeInStep (exec i s) (exec i t) := by
  rw [exec_eq_withCaps, exec_eq_withCaps, withCaps, withCaps, ← h.cfg_eq]
  cases firstViolation s.cfg.regCaps ((checkedReads s.cfg i).map .reg8) (checkedWrites i) with
  | none => exact afterCaps_agree h i
  | some r => exact h.raiseTrap _ _

/-! ### The fetch stages -/

/-- Two outcomes of a fetch stage are alike: both end the step in agreeing states, or both answer the same value and
go on in agreeing states. -/
def FetchAgree {α : Type} (x y : Except State (α × State)) : Prop :=
  (∃ s t, x = .error s ∧ y = .error t ∧ AgreeInStep s t) ∨
    ∃ a s t, x = .ok (a, s) ∧ y = .ok (a, t) ∧ AgreeInStep s t

theorem fetchByte_agree (h : AgreeInStep s t) : FetchAgree (fetchByte s) (fetchByte t) := by
  unfold fetchByte
  rw [← h.pc_eq, ← h.memRead_eq]
  cases memRead s s.pc .exec with
  | none => exact .inl ⟨_, _, rfl, rfl, h.raiseTrap _ _⟩
  | some b => exact .inr ⟨b, _, _, rfl, rfl, h.setPc _⟩

theorem fetchBytes_agree (n : Nat) (h : AgreeInStep s t) : FetchAgree (fetchBytes n s) (fetchBytes n t) := by
  induction n generalizing s t with
  | zero => exact .inr ⟨[], s, t, rfl, rfl, h⟩
  | succ n ih =>
    rcases fetchByte_agree h with ⟨s', t', hs, ht, h'⟩ | ⟨b, s', t', hs, ht, h'⟩
    · exact .inl ⟨s', t', by simp only [fetchBytes, hs], by simp only [fetchBytes, ht], h'⟩
    · rcases ih h' with ⟨s'', t'', hs', ht', h''⟩ | ⟨bs, s'', t'', hs', ht', h''⟩
      · exact .inl ⟨s'', t'', by simp only [fetchBytes, hs, hs'], by simp only [fetchBytes, ht, ht'], h''⟩
      · exact .inr ⟨b :: bs, s'', t'', by simp only [fetchBytes, hs, hs'], by simp only [fetchBytes, ht, ht'], h''⟩

theorem fetchInstr_agree (h : AgreeInStep s t) : FetchAgree (fetchInstr s) (fetchInstr t) := by
  rcases fetchByte_agree h with ⟨s', t', hs, ht, h'⟩ | ⟨b, s', t', hs, ht, h'⟩
  · exact .inl ⟨s', t', by simp only [fetchInstr, hs], by simp only [fetchInstr, ht], h'⟩
  cases hl : lengthOf b with
  | none =>
    exact .inl ⟨_, _, by simp only [fetchInstr, hs, hl], by simp only [fetchInstr, ht, hl],
      h'.raiseFatal .invalidOpcode .none⟩
  | some len =>
    rcases fetchBytes_agree (len - 1) h' with ⟨s'', t'', hs', ht', h''⟩ | ⟨bs, s'', t'', hs', ht', h''⟩
    · exact .inl ⟨s'', t'', by simp only [fetchInstr, hs, hl, hs'], by simp only [fetchInstr, ht, hl, ht'], h''⟩
    · exact .inr ⟨b :: bs, s'', t'', by simp only [fetchInstr, hs, hl, hs'],
        by simp only [fetchInstr, ht, hl, ht'], h''⟩

theorem fetchDecode_agree (h : SameButUnread s t) : FetchAgree (fetchDecode s) (fetchDecode t) := by
  rcases fetchInstr_agree (SameButUnread.agree_setStart h) with
    ⟨s', t', hs, ht, h'⟩ | ⟨bs, s', t', hs, ht, h'⟩
  · exact .inl ⟨s', t', by simp only [fetchDecode, hs], by simp only [fetchDecode, ht], h'⟩
  cases hd : decode s'.cfg.isaTable bs with
  | error r =>
    exact .inl ⟨_, _, by simp only [fetchDecode, hs, hd], by simp only [fetchDecode, ht, ← h'.cfg_eq, hd],
      h'.raiseFatal (rejectCause r) .none⟩
  | ok r =>
    exact .inr ⟨r.1, s', t', by simp only [fetchDecode, hs, hd], by simp only [fetchDecode, ht, ← h'.cfg_eq, hd], h'⟩

theorem related_mono {R Q : State → State → Prop} (hRQ : ∀ s t, R s t → Q s t) {x y : Result}
    (h : Related R x y) : Related Q x y := by
  unfold Related at h ⊢
  split at h
  · exact hRQ _ _ h
  · exact h
  · exact h
  · exact h.elim

/-- Settles O21: after `start` is set, the two states differ in L, H, M and LRAP alone, and neither the fetch stages
nor an instruction reads one of these. -/
theorem unreadRegistersHaveNoEffect : Obligations.UnreadRegistersHaveNoEffect := by
  intro s t h
  have ⟨_, _, _, _, _, hstatus, _⟩ := h
  by_cases hs : s.status = .running
  · have ht : t.status = .running := hstatus ▸ hs
    rcases fetchDecode_agree h with ⟨s', t', hfs, hft, h'⟩ | ⟨i, s', t', hfs, hft, h'⟩
    · rw [step_of_fetchDecode_error hs hfs, step_of_fetchDecode_error ht hft]
      exact h'.sameButUnread
    · rw [step_of_fetchDecode_ok hs hfs, step_of_fetchDecode_ok ht hft]
      exact related_mono (fun _ _ => AgreeInStep.sameButUnread) (exec_agree h' i)
  · rw [step_of_stopped hs, step_of_stopped (hstatus ▸ hs)]
    rfl

end Sys2Proof.Proofs
end

section
/-! SUPPORT. Statements about the state (10_state.md): when a step is taken, what reset and every run keep, which
instructions write what, and what the capability check does. -/

namespace Sys2Proof.Proofs

open Sys2Proof.Machine Sys2Proof.Safety

/-! ### Reset, steps and runs -/

/-- Settles O17: the empty listing is canonical, and a running CPU with no cause has no stop to record. -/
theorem resetHasInvariant : Obligations.ResetHasInvariant :=
  have hreset (cfg : Config) : Inv (State.resetWith cfg []) :=
    ⟨resetWith_wf cfg, trivial, fun hstopped => absurd rfl hstopped⟩
  ⟨hreset Config.default, hreset⟩

/-- Settles O10: the fetch stages end the step themselves or hand over to an instruction, and every instruction
answers a next state. -/
theorem stepAnswersExactlyWhileRunning : Obligations.StepAnswersExactlyWhileRunning := by
  refine fun s => ⟨fun hs => ?_, step_of_stopped⟩
  cases hf : fetchDecode s with
  | error t => exact ⟨t, step_of_fetchDecode_error hs hf⟩
  | ok r =>
    obtain ⟨t, ht, -⟩ := exec_effect r.1 r.2
    exact ⟨t, (step_of_fetchDecode_ok hs hf).trans ht⟩

theorem step_keeps_cfg {s t : State} (h : step s = .next t) : t.cfg = s.cfg := by
  obtain ⟨-, n, ⟨info, rfl⟩ | ⟨c, -, rfl⟩ | ⟨i, -, hexec, -⟩⟩ := step_cases h
  · obtain ⟨-, -, -, -, -, -, -, -, hcfg⟩ := raiseTrap_frame .fetchViolation info (afterFetch s n)
    exact hcfg
  · rfl
  · exact (exec_keeps_start_cfg hexec).2

/-- Settles O19, by the induction over a run: every step keeps the parameters. -/
theorem configurationNeverChanges : Obligations.ConfigurationNeverChanges := by
  intro k s t h
  exact runUntilStop_keeps (P := fun u => u.cfg = s.cfg) (fun _ _ hu hstep => (step_keeps_cfg hstep).trans hu)
    rfl h

/-! ### What an instruction writes -/

/-- The "Written by" column of 10_state.md R22 for the registers under capabilities. -/
theorem completed_registers (i : Instr) (s : State) :
    ((completed s i).a ≠ s.a → i.opcode ∈ [.lda, .zero]) ∧
    ((completed s i).b ≠ s.b → i.opcode ∈ [.ldb, .zero]) ∧
    ((completed s i).c ≠ s.c → i.opcode ∈ [.abc, .mul, .cmp, .cpl, .land, .lxor, .lor, .zero]) ∧
    ((completed s i).l ≠ s.l → i.opcode ∈ [.ldl, .cld]) ∧
    ((completed s i).h ≠ s.h → i.opcode ∈ [.ldh, .cld]) ∧
    ((completed s i).m ≠ s.m → i.opcode ∈ [.mbnkrom, .mbnkram]) := by
  cases i with
  | jz f addr | jnz f addr => simp [completed, Instr.opcode, jumpIf_eq]
  | hlt f m => simp [completed, Instr.opcode, stopHalted]
  | _ => simp [completed, Instr.opcode]

/-- Of the rest, the PC and LRAP change under control transfers, memory under stores, the status, the cause and the
event output under HLT (10_state.md R22, R34; 60_exceptions.md R203). -/
theorem completed_control (i : Instr) (s : State) :
    ((completed s i).lrap ≠ s.lrap → i.opcode = .panic) ∧
    ((completed s i).pc ≠ s.pc → i.opcode ∈ [.jmp, .jz, .jnz, .panic]) ∧
    ((completed s i).mem ≠ s.mem → i.opcode ∈ [.sta, .stb, .stc]) ∧
    ((completed s i).status ≠ s.status → i.opcode = .hlt) ∧
    ((completed s i).cause ≠ s.cause → i.opcode = .hlt) ∧
    ((completed s i).events ≠ s.events → i.opcode = .hlt) := by
  cases i with
  | jz f addr | jnz f addr => simp [completed, Instr.opcode, jumpIf_eq]
  | hlt f m => simp [completed, Instr.opcode, stopHalted]
  | _ => simp [completed, Instr.opcode]

/-- Settles O23: an instruction completes, and then writes what its row names, or traps, and a trap leaves everything
else. -/
theorem onlyNamedInstructionsWrite : Obligations.OnlyNamedInstructionsWrite := by
  intro i s t h
  have hkept := exec_keeps_start_cfg h
  rcases exec_next_cases h with rfl | ⟨c, info, rfl⟩
  · obtain ⟨ha, hb, hc, hl, hh, hm⟩ := completed_registers i s
    obtain ⟨hlrap, hpc, hmem, hstatus, hcause, hevents⟩ := completed_control i s
    exact ⟨ha, hb, hc, hl, hh, hm, .inl ∘ hlrap, .inl ∘ hpc, hmem, .inl ∘ hstatus, .inl ∘ hcause, .inl ∘ hevents,
      hkept⟩
  · obtain ⟨ha, hb, hc, hl, hh, hm, hmem, -, -⟩ := raiseTrap_frame c info s
    have trapped : ∃ c' info', raiseTrap c info s = raiseTrap c' info' s := ⟨c, info, rfl⟩
    exact ⟨absurd ha, absurd hb, absurd hc, absurd hl, absurd hh, absurd hm, fun _ => .inr trapped,
      fun _ => .inr trapped, absurd hmem, fun _ => .inr trapped, fun _ => .inr trapped, fun _ => .inr trapped,
      hkept⟩

/-! ### The capability check -/

/-- A read that fails after reads that pass is the violation, whatever is written (10_state.md R27). -/
theorem firstViolation_of_read {caps : RegCaps} {before after writes : List CapReg} {r : CapReg}
    (hbefore : ∀ q ∈ before, (capOf caps q).readable = true) (hr : (capOf caps r).readable = false) :
    firstViolation caps (before ++ r :: after) writes = some r := by
  have hfind : (before ++ r :: after).find? (fun q => !(capOf caps q).readable) = some r :=
    List.find?_eq_some_iff_append.2 ⟨by simp [hr], before, after, rfl, by simpa using hbefore⟩
  rw [firstViolation, hfind]

/-- A write that fails after reads and writes that pass is the violation (10_state.md R27). -/
theorem firstViolation_of_write {caps : RegCaps} {reads before after : List CapReg} {r : CapReg}
    (hreads : ∀ q ∈ reads, (capOf caps q).readable = true)
    (hbefore : ∀ q ∈ before, (capOf caps q).writable = true) (hr : (capOf caps r).writable = false) :
    firstViolation caps reads (before ++ r :: after) = some r := by
  have hnone : reads.find? (fun q => !(capOf caps q).readable) = none :=
    List.find?_eq_none.2 (by simpa using hreads)
  rw [firstViolation, hnone]
  exact List.find?_eq_some_iff_append.2 ⟨by simp [hr], before, after, rfl, by simpa using hbefore⟩

/-- An instruction whose capability check finds a violation traps with it and does nothing else. -/
theorem exec_of_violation {i : Instr} {s : State} {r : CapReg}
    (h : firstViolation s.cfg.regCaps ((checkedReads s.cfg i).map .reg8) (checkedWrites i) = some r) :
    exec i s = .next (raiseTrap .capabilityViolation (.register r) s) := by
  rw [exec_eq_withCaps, withCaps, h]

/-- Settles O30: every instruction begins with its capability check, which goes through the reads in order and then
through the writes. -/
theorem capabilityCheckComesFirst : Obligations.CapabilityCheckComesFirst := by
  refine fun i s => ⟨fun before r after hreads hbefore hr => ?_, fun before r after hwrites hreads hbefore hr => ?_⟩
  · exact exec_of_violation (hreads ▸ firstViolation_of_read hbefore hr)
  · exact exec_of_violation (hwrites ▸ firstViolation_of_write hreads hbefore hr)

end Sys2Proof.Proofs
end

section
/-! SUPPORT. Two states that a step treats alike, for any relation between states: the fetch stages are written as a
chain of `Except.bind`, one lemma carries a relation through a chain, and with it through a whole step. -/

namespace Sys2Proof.Proofs

open Sys2Proof.Machine Sys2Proof.Safety

/-! ### The fetch stages as chains -/

theorem fetchBytes_succ_eq_bind (n : Nat) (s : State) :
    fetchBytes (n + 1) s =
      (fetchByte s).bind fun p => (fetchBytes n p.2).bind fun q => .ok (p.1 :: q.1, q.2) := by
  rw [fetchBytes]
  cases fetchByte s with
  | error t => rfl
  | ok p => cases h : fetchBytes n p.2 <;> simp only [Except.bind, h]

theorem fetchInstr_eq_bind (s : State) :
    fetchInstr s =
      (fetchByte s).bind fun p =>
        (lengthOf p.1).elim (.error (raiseFatal .invalidOpcode .none p.2)) fun len =>
          (fetchBytes (len - 1) p.2).bind fun q => .ok (p.1 :: q.1, q.2) := by
  rw [fetchInstr]
  cases fetchByte s with
  | error t => rfl
  | ok p =>
    cases hl : lengthOf p.1 with
    | none => simp only [Except.bind, hl, Option.elim]
    | some len => cases h : fetchBytes (len - 1) p.2 <;> simp only [Except.bind, hl, h, Option.elim]

theorem fetchDecode_eq_bind (s : State) :
    fetchDecode s =
      (fetchInstr (s.setStart s.pc)).bind fun p =>
        match decode p.2.cfg.isaTable p.1 with
        | .error r => .error (raiseFatal (rejectCause r) .none p.2)
        | .ok d => .ok (d.1, p.2) := by
  rw [fetchDecode]
  cases fetchInstr (s.setStart s.pc) with
  | error t => rfl
  | ok p => cases h : decode p.2.cfg.isaTable p.1 <;> simp only [Except.bind, h]

/-! ### Relations a step carries -/

/-- Two outcomes of a fetch stage are alike: both end the step, in states that `Q` relates, or both answer the same
value and go on in states that `R` relates. -/
def FetchRelated {α : Type} (R Q : State → State → Prop) (x y : Except State (α × State)) : Prop :=
  (∃ s t, x = .error s ∧ y = .error t ∧ Q s t) ∨ ∃ a s t, x = .ok (a, s) ∧ y = .ok (a, t) ∧ R s t

theorem FetchRelated.bind {α β : Type} {R Q : State → State → Prop} {x y : Except State (α × State)}
    {f g : α × State → Except State (β × State)} (h : FetchRelated R Q x y)
    (hfg : ∀ a s t, R s t → FetchRelated R Q (f (a, s)) (g (a, t))) : FetchRelated R Q (x.bind f) (y.bind g) := by
  rcases h with ⟨s, t, rfl, rfl, hQ⟩ | ⟨a, s, t, rfl, rfl, hR⟩
  · exact .inl ⟨s, t, rfl, rfl, hQ⟩
  · exact hfg a s t hR

/-- What makes a step carry a relation: states that `R` relates in the middle of a step fetch, decode and check alike,
and end the step in states that `Q` relates. -/
structure StepSimulation (R Q : State → State → Prop) : Prop where
  pc_eq : ∀ {s t}, R s t → s.pc = t.pc
  isaTable_eq : ∀ {s t}, R s t → s.cfg.isaTable = t.cfg.isaTable
  regCaps_eq : ∀ {s t}, R s t → s.cfg.regCaps = t.cfg.regCaps
  storeByName_eq : ∀ {s t}, R s t → s.cfg.storeByName = t.cfg.storeByName
  fetched_eq : ∀ {s t}, R s t → memRead s s.pc .exec = memRead t t.pc .exec
  laterFault_eq : ∀ {s t}, R s t → ∀ i, laterFault s i = laterFault t i
  setPc : ∀ {s t}, R s t → ∀ v, R (s.setPc v) (t.setPc v)
  raiseTrap : ∀ {s t}, R s t → ∀ c info, Q (raiseTrap c info s) (raiseTrap c info t)
  raiseFatal : ∀ {s t}, R s t → ∀ c info, Q (raiseFatal c info s) (raiseFatal c info t)
  completed : ∀ {s t}, R s t → ∀ i, laterFault s i = none → Q (completed s i) (completed t i)

namespace StepSimulation

variable {R Q : State → State → Prop} {s t : State}

theorem fetchByte (hsim : StepSimulation R Q) (h : R s t) : FetchRelated R Q (fetchByte s) (fetchByte t) := by
  unfold Machine.fetchByte
  rw [← hsim.fetched_eq h, ← hsim.pc_eq h]
  cases memRead s s.pc .exec with
  | none => exact .inl ⟨_, _, rfl, rfl, hsim.raiseTrap h _ _⟩
  | some b => exact .inr ⟨b, _, _, rfl, rfl, hsim.setPc h _⟩

theorem fetchBytes (hsim : StepSimulation R Q) (n : Nat) (h : R s t) :
    FetchRelated R Q (fetchBytes n s) (fetchBytes n t) := by
  induction n generalizing s t with
  | zero => exact .inr ⟨[], s, t, rfl, rfl, h⟩
  | succ n ih =>
    rw [fetchBytes_succ_eq_bind, fetchBytes_succ_eq_bind]
    exact (hsim.fetchByte h).bind fun b s' t' h' =>
      (ih h').bind fun bs s'' t'' h'' => .inr ⟨b :: bs, s'', t'', rfl, rfl, h''⟩

theorem fetchInstr (hsim : StepSimulation R Q) (h : R s t) : FetchRelated R Q (fetchInstr s) (fetchInstr t) := by
  rw [fetchInstr_eq_bind, fetchInstr_eq_bind]
  refine (hsim.fetchByte h).bind fun b s' t' h' => ?_
  cases lengthOf b with
  | none => exact .inl ⟨_, _, rfl, rfl, hsim.raiseFatal h' _ _⟩
  | some len =>
    exact (hsim.fetchBytes (len - 1) h').bind fun bs s'' t'' h'' => .inr ⟨b :: bs, s'', t'', rfl, rfl, h''⟩

theorem fetchDecode (hsim : StepSimulation R Q) (h : R (s.setStart s.pc) (t.setStart t.pc)) :
    FetchRelated R Q (fetchDecode s) (fetchDecode t) := by
  rw [fetchDecode_eq_bind, fetchDecode_eq_bind]
  refine (hsim.fetchInstr h).bind fun bs s' t' h' => ?_
  simp only [← hsim.isaTable_eq h']
  cases decode s'.cfg.isaTable bs with
  | error r => exact .inl ⟨_, _, rfl, rfl, hsim.raiseFatal h' _ _⟩
  | ok d => exact .inr ⟨d.1, s', t', rfl, rfl, h'⟩

theorem afterCaps (hsim : StepSimulation R Q) (h : R s t) (i : Instr) :
    Related Q (afterCaps i s) (afterCaps i t) := by
  have heq := hsim.laterFault_eq h i
  cases hf : laterFault s i with
  | none =>
    rw [afterCaps_of_none hf, afterCaps_of_none (heq ▸ hf)]
    exact hsim.completed h i hf
  | some fault =>
    rw [afterCaps_of_fault hf, afterCaps_of_fault (heq ▸ hf)]
    exact hsim.raiseTrap h _ _

theorem checkedReads_eq (hsim : StepSimulation R Q) (h : R s t) (i : Instr) :
    checkedReads s.cfg i = checkedReads t.cfg i := by
  cases i with
  | stb f addr | stc f addr => simp only [checkedReads, hsim.storeByName_eq h]
  | _ => rfl

theorem exec (hsim : StepSimulation R Q) (h : R s t) (i : Instr) : Related Q (exec i s) (exec i t) := by
  rw [exec_eq_withCaps, exec_eq_withCaps, withCaps, withCaps, ← hsim.checkedReads_eq h, ← hsim.regCaps_eq h]
  cases firstViolation s.cfg.regCaps ((checkedReads s.cfg i).map .reg8) (checkedWrites i) with
  | none => exact hsim.afterCaps h i
  | some r => exact hsim.raiseTrap h _ _

/-- A step begins by setting `start` (30_encoding.md R97), so the states need be related only once it is set. -/
theorem step (hsim : StepSimulation R Q) (hstatus : s.status = t.status)
    (h : R (s.setStart s.pc) (t.setStart t.pc)) : Related Q (step s) (step t) := by
  by_cases hs : s.status = .running
  · have ht : t.status = .running := hstatus ▸ hs
    rcases hsim.fetchDecode h with ⟨s', t', hfs, hft, h'⟩ | ⟨i, s', t', hfs, hft, h'⟩
    · rw [step_of_fetchDecode_error hs hfs, step_of_fetchDecode_error ht hft]
      exact h'
    · rw [step_of_fetchDecode_ok hs hfs, step_of_fetchDecode_ok ht hft]
      exact hsim.exec h' i
  · rw [step_of_stopped hs, step_of_stopped (hstatus ▸ hs)]
    rfl

end StepSimulation

end Sys2Proof.Proofs
end

section
/-! SUPPORT. Statements about memory (20_memory.md): the permission test, the checked write, and what no step and no
run does to a protected or a hidden byte; with them the invariant, whose first part is memory's canonical form. -/

namespace Sys2Proof.Proofs

open Sys2Proof.Machine Sys2Proof.Safety

/-! ### The invariant -/

theorem cause_of_running {s : State} (hs : s.status = .running) (h : Inv s) : s.cause = .none := by
  obtain ⟨-, hagrees, -⟩ := h
  unfold StatusAgrees at hagrees
  rw [hs] at hagrees
  cases hc : s.cause <;> simp [hc] at hagrees ⊢

/-- While the CPU runs there is no stop to record, and the cause is NONE (10_state.md R34). -/
theorem inv_of_running {s : State} (hs : s.status = .running) (hwf : Memory.wf s.mem = true)
    (hcause : s.cause = .none) : Inv s := by
  refine ⟨hwf, ?_, absurd hs⟩
  unfold StatusAgrees
  rw [hs, hcause]
  exact trivial

/-- A stop records itself, so only memory and the policy are left to check (60_exceptions.md R208, R209). -/
theorem raiseFatal_inv {c : FatalCause} {s : State} (info : Info) (hwf : Memory.wf s.mem = true)
    (hpolicy : c = .doubleFault → s.cfg.policy = .trap) : Inv (raiseFatal c info s) := by
  refine ⟨hwf, ?_, fun _ => ⟨info, List.getLast?_concat⟩⟩
  cases c with
  | invalidOpcode | illegalAddressMode => exact trivial
  | doubleFault => exact hpolicy rfl

theorem raiseTrap_keeps_inv {s : State} (hs : s.status = .running) (h : Inv s) (c : TrapCause) (info : Info) :
    Inv (raiseTrap c info s) := by
  have ⟨hwf, _, _⟩ := h
  have hcause := cause_of_running hs h
  rcases raiseTrap_cases c info s with ⟨hp, heq⟩ | ⟨hp, -, heq⟩ | ⟨-, -, heq⟩ <;> rw [heq]
  · exact ⟨hwf, hp, fun _ => ⟨info, List.getLast?_concat⟩⟩
  · exact raiseFatal_inv _ hwf fun _ => hp
  · exact inv_of_running hs hwf hcause

/-- Of an instruction's effects only a store reaches memory, and only HLT and a trap the status and the cause. -/
theorem execEffect_keeps_inv {s t : State} (he : ExecEffect s t) (hs : s.status = .running) (h : Inv s) :
    Inv t := by
  have ⟨hwf, _, _⟩ := h
  have hcause := cause_of_running hs h
  cases he with
  | trapped c info => exact raiseTrap_keeps_inv hs h c info
  | stored addr v _ => exact inv_of_running hs (s.setByte_keeps_wf addr v hwf) hcause
  | halted => exact ⟨hwf, trivial, fun _ => ⟨.none, List.getLast?_concat⟩⟩
  | register r v => exact inv_of_running (by simpa using hs) (by simpa using hwf) (by simpa using hcause)
  | clearedABC | clearedLH | bank v | jumped target | panicked | nothing => exact inv_of_running hs hwf hcause

/-- Settles O16: the fetch stages change only `start` and the PC, which the invariant of a running CPU does not speak
of, and every way a step can end from there keeps it. -/
theorem stepKeepsInvariant : Obligations.StepKeepsInvariant := by
  intro s t h hstep
  have ⟨hwf, _, _⟩ := h
  obtain ⟨hs, n, hend⟩ := step_cases hstep
  have hcause := cause_of_running hs h
  have hmid : Inv (afterFetch s n) := inv_of_running hs hwf hcause
  rcases hend with ⟨info, rfl⟩ | ⟨c, hc, rfl⟩ | ⟨i, -, -, he⟩
  · exact raiseTrap_keeps_inv (s := afterFetch s n) hs hmid _ info
  · exact raiseFatal_inv _ hwf fun hdouble => absurd hdouble hc
  · exact execEffect_keeps_inv he hs hmid

/-! ### Bytes protected from writing -/

@[simp] theorem raiseTrap_byteAt (c : TrapCause) (info : Info) (s : State) (addr : Addr) :
    (raiseTrap c info s).byteAt addr = s.byteAt addr := by
  obtain ⟨-, -, -, -, -, -, hmem, -, -⟩ := raiseTrap_frame c info s
  rw [State.byteAt, hmem, State.byteAt]

/-- Of an instruction's effects only a permitted store writes a byte, and that byte is not protected. -/
theorem execEffect_keeps_protected_byte {s t : State} {addr : Addr} (he : ExecEffect s t)
    (h : WriteProtected s addr) : t.byteAt addr = s.byteAt addr := by
  cases he with
  | trapped c info => exact raiseTrap_byteAt c info s addr
  | stored target v hp =>
    have hne : addr ≠ target := by
      rintro rfl
      exact Bool.false_ne_true (h.symm.trans hp)
    exact s.byteAt_setByte_other target addr v hne
  | register r v => exact s.setReg_byteAt r v addr
  | clearedABC | clearedLH | bank v | jumped target | halted | panicked | nothing => rfl

theorem step_keeps_protected_byte {s t : State} {addr : Addr} (h : WriteProtected s addr)
    (hstep : step s = .next t) : t.byteAt addr = s.byteAt addr := by
  obtain ⟨-, n, ⟨info, rfl⟩ | ⟨c, -, rfl⟩ | ⟨i, -, -, he⟩⟩ := step_cases hstep
  · exact raiseTrap_byteAt _ info (afterFetch s n) addr
  · rfl
  · exact execEffect_keeps_protected_byte (s := afterFetch s n) he h

/-- Settles O18, by the induction over a run: the rules stay, so the byte stays protected, and no step changes it. -/
theorem writeProtectedByteNeverChanges : Obligations.WriteProtectedByteNeverChanges := by
  intro k s t addr h hrun
  have hstays : ∀ u v, WriteProtected u addr ∧ u.byteAt addr = s.byteAt addr → step u = .next v →
      WriteProtected v addr ∧ v.byteAt addr = s.byteAt addr := fun u v ⟨hu, hbyte⟩ hstep =>
    ⟨by rwa [WriteProtected, step_keeps_cfg hstep], (step_keeps_protected_byte hu hstep).trans hbyte⟩
  obtain ⟨-, hbyte⟩ := runUntilStop_keeps hstays ⟨h, rfl⟩ hrun
  exact hbyte

/-! ### Bytes that may be neither read nor fetched -/

/-- The second state is the first one with another memory, which differs in the byte at `addr` at most. -/
def DifferAt (addr : Addr) (s t : State) : Prop :=
  ∃ mem, t = s.setMem mem ∧ ∀ other, other ≠ addr → s.byteAt other = (s.setMem mem).byteAt other

theorem sameButByte_iff_differAt {addr : Addr} {s t : State} : SameButByte addr s t ↔ DifferAt addr s t := by
  constructor
  · rintro ⟨ha, hb, hc, hl, hh, hm, hlrap, hpc, hstatus, hcause, hevents, hstart, hcfg, hbytes⟩
    refine ⟨t.mem, ?_, hbytes⟩
    simp only [State.setMem, ha, hb, hc, hl, hh, hm, hlrap, hpc, hstatus, hcause, hevents, hstart, hcfg]
  · rintro ⟨mem, rfl, hbytes⟩
    exact ⟨rfl, rfl, rfl, rfl, rfl, rfl, rfl, rfl, rfl, rfl, rfl, rfl, rfl, hbytes⟩

section Differing

variable {addr : Addr} {s t : State}

theorem DifferAt.cfg_eq (h : DifferAt addr s t) : s.cfg = t.cfg := by
  obtain ⟨mem, rfl, -⟩ := h
  rfl

theorem DifferAt.pc_eq (h : DifferAt addr s t) : s.pc = t.pc := by
  obtain ⟨mem, rfl, -⟩ := h
  rfl

theorem DifferAt.start_eq (h : DifferAt addr s t) : s.start = t.start := by
  obtain ⟨mem, rfl, -⟩ := h
  rfl

/-- A change of the state that does not look at memory, and so does not touch it, keeps the difference in one byte. -/
theorem DifferAt.map {f : State → State} (h : DifferAt addr s t)
    (hf : ∀ mem, f (s.setMem mem) = (f s).setMem mem) : DifferAt addr (f s) (f t) := by
  obtain ⟨mem, rfl, hbytes⟩ := h
  have hmem : (f s).mem = s.mem := (congrArg State.mem (hf s.mem) :)
  refine ⟨mem, hf mem, fun other hother => ?_⟩
  rw [State.byteAt, hmem]
  exact hbytes other hother

/-- Storing the same byte in both, be it at the address where they differ, keeps the difference in one byte. -/
theorem DifferAt.setByte (h : DifferAt addr s t) (target : Addr) (v : Byte) :
    DifferAt addr (s.setByte target v) (t.setByte target v) := by
  obtain ⟨mem, rfl, hbytes⟩ := h
  refine ⟨((s.setMem mem).setByte target v).mem, rfl, fun other hother => ?_⟩
  change (s.setByte target v).byteAt other = ((s.setMem mem).setByte target v).byteAt other
  by_cases htarget : other = target
  · rw [htarget, State.byteAt_setByte_same, State.byteAt_setByte_same]
  · rw [State.byteAt_setByte_other _ _ _ _ htarget, State.byteAt_setByte_other _ _ _ _ htarget,
      hbytes other hother]

theorem DifferAt.raiseTrap (h : DifferAt addr s t) (c : TrapCause) (info : Info) :
    DifferAt addr (raiseTrap c info s) (raiseTrap c info t) := by
  unfold Machine.raiseTrap
  rw [← h.cfg_eq, ← h.start_eq]
  cases s.cfg.policy with
  | halt => exact h.map (f := fun u => (u.stop _ _).emit _ _) fun _ => rfl
  | trap =>
    by_cases hpanic : s.start = s.cfg.panicAddr
    · simpa only [if_pos hpanic] using h.map (f := raiseFatal _ _) fun _ => rfl
    · simpa only [if_neg hpanic] using h.map (f := fun u => ((u.setLrap _).setPc _).emit _ _) fun _ => rfl

/-- An access in a mode that is denied where the states differ answers the same in both. -/
theorem DifferAt.memRead_eq (h : DifferAt addr s t) {mode : AccessMode}
    (hdenied : permitted s.cfg.regions addr mode = false) (target : Addr) :
    memRead s target mode = memRead t target mode := by
  obtain ⟨mem, rfl, hbytes⟩ := h
  rw [memRead, memRead, State.setMem_cfg]
  by_cases htarget : target = addr
  · simp [htarget, hdenied]
  · rw [hbytes target htarget]

/-- A permitted load is from elsewhere, where the states have the same byte. -/
theorem DifferAt.loaded_eq (h : DifferAt addr s t) (hhidden : Hidden s addr) {target : Addr} {info : TrapCause × Info}
    (hp : (if permitted s.cfg.regions target .read then none else some info) = none) :
    s.byteAt target = t.byteAt target := by
  obtain ⟨mem, rfl, hbytes⟩ := h
  refine hbytes target ?_
  rintro rfl
  simp [hhidden.1] at hp

/-- Only loads look at memory, and only stores touch it. -/
theorem DifferAt.completed (h : DifferAt addr s t) (hhidden : Hidden s addr) (i : Instr)
    (hf : laterFault s i = none) : DifferAt addr (completed s i) (completed t i) := by
  cases i with
  | ldaMem f target | ldbMem f target | ldlMem f target | ldhMem f target =>
    simp only [Proofs.completed, ← h.loaded_eq hhidden hf]
    exact h.map (f := fun u => u.setReg _ _) fun _ => rfl
  | sta f target | stb f target | stc f target =>
    have hset := h.setByte target
    obtain ⟨mem, rfl, -⟩ := h
    exact hset _
  | jz f target | jnz f target =>
    exact h.map (f := fun u => Proofs.completed u _) fun _ => by simp only [Proofs.completed, jumpIf_eq]; rfl
  | _ => exact h.map (f := fun u => Proofs.completed u _) fun _ => rfl

/-- No check looks at a byte of memory. -/
theorem DifferAt.laterFault_eq (h : DifferAt addr s t) (i : Instr) : laterFault s i = laterFault t i := by
  obtain ⟨mem, rfl, -⟩ := h
  cases i <;> rfl

end Differing

/-- A step carries a difference in a byte that may be neither fetched nor read: no fetch and no load gets at it. -/
theorem differAt_stepSimulation (addr : Addr) :
    StepSimulation (fun s t => Hidden s addr ∧ DifferAt addr s t) (SameButByte addr) where
  pc_eq := fun ⟨_, h⟩ => h.pc_eq
  isaTable_eq := fun ⟨_, h⟩ => by rw [h.cfg_eq]
  regCaps_eq := fun ⟨_, h⟩ => by rw [h.cfg_eq]
  storeByName_eq := fun ⟨_, h⟩ => by rw [h.cfg_eq]
  fetched_eq := fun ⟨hhidden, h⟩ => by
    rw [← h.pc_eq]
    exact h.memRead_eq hhidden.2 _
  laterFault_eq := fun ⟨_, h⟩ => h.laterFault_eq
  setPc := fun ⟨hhidden, h⟩ v => ⟨hhidden, h.map (f := fun u => u.setPc v) fun _ => rfl⟩
  raiseTrap := fun ⟨_, h⟩ c info => sameButByte_iff_differAt.2 (h.raiseTrap c info)
  raiseFatal := fun ⟨_, h⟩ c info =>
    sameButByte_iff_differAt.2 (h.map (f := raiseFatal c info) fun _ => rfl)
  completed := fun ⟨hhidden, h⟩ i hf => sameButByte_iff_differAt.2 (h.completed hhidden i hf)

/-- Settles O20: setting `start` keeps the one difference, and a step carries it. -/
theorem hiddenByteIsNotLearned : Obligations.HiddenByteIsNotLearned := by
  intro addr s t hhidden h
  have hdiffer := sameButByte_iff_differAt.1 h
  have ⟨_, _, _, _, _, _, _, _, hstatus, _⟩ := h
  exact (differAt_stepSimulation addr).step hstatus
    ⟨hhidden, hdiffer.map (f := fun u => u.setStart u.pc) fun _ => rfl⟩

/-! ### The checked write -/

/-- Settles O33: a checked write stores its byte through `setByte`, which touches that byte alone, or is denied. -/
theorem checkedWriteStoresOrDenies : Obligations.CheckedWriteStoresOrDenies := by
  intro s addr v mode
  rcases memWrite_cases s addr v mode with ⟨hp, hw⟩ | ⟨hp, hw⟩
  · refine ⟨fun hdenied => absurd (hdenied.symm.trans hp) Bool.false_ne_true, fun _ => ⟨_, hw, ?_⟩⟩
    exact ⟨s.byteAt_setByte_same addr v, fun other h => s.byteAt_setByte_other addr other v h, rfl⟩
  · exact ⟨fun _ => hw, fun hpermitted => absurd (hp.symm.trans hpermitted) Bool.false_ne_true⟩

/-- Settles O34: after a permitted store the byte at its address is the stored one, under the same rules, and a fetch
and a load that are permitted get that byte. -/
theorem storeIsSeenByFetchAndLoad : Obligations.StoreIsSeenByFetchAndLoad := by
  intro s t addr v hw
  have ht : t = s.setByte addr v := by
    rcases memWrite_cases s addr v .write with ⟨-, hstored⟩ | ⟨-, hdenied⟩
    · exact Option.some.inj (hw.symm.trans hstored)
    · rw [hdenied] at hw
      cases hw
  subst ht
  have hbyte := s.byteAt_setByte_same addr v
  refine ⟨fun hexec => ?_, fun hread => ?_⟩
  · rcases fetchByte_cases ((s.setByte addr v).setPc addr) with ⟨-, hfetch⟩ | ⟨hdenied, -⟩
    · rw [State.setPc_pc, State.setPc_byteAt, hbyte] at hfetch
      exact hfetch
    · exact absurd (hdenied.symm.trans hexec) Bool.false_ne_true
  · rw [memRead, State.setByte_cfg, if_pos hread, hbyte]

/-! ### The permission test -/

theorem covers_eq_true (rule : RegionRule) (addr : Addr) :
    covers rule addr = true ↔ rule.lowBound.toNat ≤ addr.toNat ∧ addr.toNat ≤ rule.highBound.toNat := by
  simp [covers]

/-- An access is permitted exactly when no rule covers the address and forbids the mode (20_memory.md R54). -/
theorem permitted_eq_true (regions : List RegionRule) (addr : Addr) (mode : AccessMode) :
    permitted regions addr mode = true ↔
      ¬ ∃ rule ∈ regions, covers rule addr = true ∧ forbids rule mode = true := by
  rw [← permitted_eq_false, Bool.not_eq_false]

/-- Settles O31: covering an address is lying between both bounds. -/
theorem permissionTest : Obligations.PermissionTest := by
  intro regions addr mode
  rw [permitted_eq_true]
  simp only [covers_eq_true, and_assoc]
  cases mode <;> rfl

/-- Settles O32: the test asks which rules are in the list, and of these only for those that cover the address. -/
theorem permissionIgnoresOrder : Obligations.PermissionIgnoresOrder := by
  have huncovered : ∀ (regions : List RegionRule) (addr : Addr) (mode : AccessMode),
      (∀ rule ∈ regions, covers rule addr = false) → permitted regions addr mode = true := by
    intro regions addr mode h
    rw [permitted_eq_true]
    rintro ⟨rule, hmem, hcovers, -⟩
    exact Bool.false_ne_true ((h rule hmem).symm.trans hcovers)
  refine ⟨fun r1 r2 addr mode h => ?_, huncovered, fun addr mode => huncovered [] addr mode (by simp),
    fun rule addr h => ?_⟩
  · rw [Bool.eq_iff_iff, permitted_eq_true, permitted_eq_true]
    simp only [h]
  · rw [← Bool.not_eq_true, covers_eq_true]
    omega

end Sys2Proof.Proofs
end

section
/-! SUPPORT. Statements about the encoding (30_encoding.md R80 to R104): the decoder takes bytes apart into the parts
that the encoder puts together, under every admitted ISA table. -/

namespace Sys2Proof.Proofs

open Sys2Proof.Machine Sys2Proof.Safety

variable {t : IsaTable}

/-! ### Bytes and their parts -/

theorem controlBytes_pos (sc : SizeClass) : 0 < sc.controlBytes := by cases sc <;> decide

theorem controlBytes_le (sc : SizeClass) : sc.controlBytes ≤ 3 := by cases sc <;> decide

theorem operandBytes_le (am : AddressMode) : am.operandBytes ≤ 2 := by cases am <;> decide

/-- As many bytes as a mode asks for are the bytes of an operand of that mode (30_encoding.md R83). -/
theorem exists_operand_of_length {am : AddressMode} {bs : List Byte} (h : bs.length = am.operandBytes) :
    ∃ o : Operand, o.mode = am ∧ o.bytes = bs := by
  cases am with
  | null => exact ⟨.implicit .null, rfl, (List.length_eq_zero_iff.1 h).symm⟩
  | register => exact ⟨.implicit .register, rfl, (List.length_eq_zero_iff.1 h).symm⟩
  | constant =>
    obtain ⟨imm, rfl⟩ := List.length_eq_one_iff.1 h
    exact ⟨.constant imm, rfl, rfl⟩
  | memory =>
    obtain ⟨hi, lo, rfl⟩ := List.length_eq_two.1 h
    exact ⟨.memory (pair hi lo), rfl, by simp [Operand.bytes]⟩

/-- Control byte 0 gives a length exactly when it has a size class (30_encoding.md R85). -/
theorem lengthOf_eq_some {b0 : Byte} {len : Nat} :
    lengthOf b0 = some len ↔
      ∃ sc, sizeClassOf b0 = some sc ∧ len = sc.controlBytes + (addressModeOf b0).operandBytes := by
  simp [lengthOf, eq_comm]

/-- Bits 7:6 of control byte 0, as a number. -/
theorem toNat_sizeClassBits (b0 : Byte) : (b0.extractLsb' 6 2).toNat = b0.toNat / 64 := by
  rw [BitVec.extractLsb'_toNat, Nat.shiftRight_eq_div_pow]
  omega

/-- Bytes 0x00 to 0x3F have no size class (30_encoding.md R93). -/
theorem sizeClassOf_eq_none {b0 : Byte} (h : b0.toNat < 0x40) : sizeClassOf b0 = none := by
  have hbits : b0.extractLsb' 6 2 = 0#2 :=
    BitVec.eq_of_toNat_eq ((toNat_sizeClassBits b0).trans (Nat.div_eq_of_lt h))
  simp [sizeClassOf, hbits]

/-- Bytes 0xC0 to 0xFF are Extra (30_encoding.md R81, R100). -/
theorem sizeClassOf_eq_extra {b0 : Byte} (h : 0xC0 ≤ b0.toNat) : sizeClassOf b0 = some .extra := by
  have hbits : b0.extractLsb' 6 2 = 3#2 := by
    have hlt := b0.isLt
    exact BitVec.eq_of_toNat_eq ((toNat_sizeClassBits b0).trans (by simp; omega))
  simp [sizeClassOf, hbits]

/-! ### The decoder by parts -/

/-- Dispatch answers an instruction when the lookup finds its opcode, and the fields are its own
(30_encoding.md R91, R94). -/
theorem resolve_eq_ok {sc : SizeClass} {frags : List Byte} {f : Bool} {o : Operand} {i : Instr} :
    resolve t sc frags f o = .ok i ↔ lookup t sc frags = some i.opcode ∧ i.flag = f ∧ i.operand = o := by
  constructor
  · intro h
    unfold resolve at h
    split at h
    · cases h
    next op hop =>
      split at h
      · cases h
      next j hj =>
        cases h
        obtain ⟨rfl, hflag, hoperand⟩ := instrOf_eq_some hj
        exact ⟨hop, hflag, hoperand⟩
  · rintro ⟨hop, rfl, rfl⟩
    simp only [resolve, hop, instrOf_parts]

theorem resolve_of_lookup_none {sc : SizeClass} {frags : List Byte} (f : Bool) (o : Operand)
    (h : lookup t sc frags = none) : resolve t sc frags f o = .error .notFound := by
  rw [resolve, h]

theorem resolve_of_illegal_mode {sc : SizeClass} {frags : List Byte} {op : Opcode} {o : Operand} (f : Bool)
    (h : lookup t sc frags = some op) (ho : o.mode ∉ op.legalModes) :
    resolve t sc frags f o = .error .illegalAddressMode := by
  have hnone : instrOf op f o = none := by
    rwa [← instrOf_isSome op f o, Option.not_isSome_iff_eq_none] at ho
  simp only [resolve, h, hnone]

/-- The decoder on bytes written out by their parts: all that is left is dispatch (30_encoding.md R90). -/
theorem decode_parts {b0 : Byte} {sc : SizeClass} {frags : List Byte} {o : Operand} (t : IsaTable)
    (rest : List Byte) (hsc : sizeClassOf b0 = some sc) (hfrags : frags.length + 1 = sc.controlBytes)
    (ho : o.mode = addressModeOf b0) :
    decode t (b0 :: (frags ++ (o.bytes ++ rest))) =
      (resolve t sc (frag0Of b0 :: frags) (flagOf b0) o).map (·, rest) := by
  have hcount : sc.controlBytes - 1 = frags.length := by omega
  simp only [decode, hsc, hcount, takeFragments_append, ← ho, takeOperand_bytes]
  cases resolve t sc (frag0Of b0 :: frags) (flagOf b0) o <;> rfl

/-- What the decoder answers, it has read part by part from the bytes (30_encoding.md R80, R90). -/
theorem decode_eq_ok {bytes rest : List Byte} {i : Instr} (h : decode t bytes = .ok (i, rest)) :
    ∃ b0 sc frags, bytes = b0 :: (frags ++ (i.operand.bytes ++ rest)) ∧ sizeClassOf b0 = some sc ∧
      lookup t sc (frag0Of b0 :: frags) = some i.opcode ∧ i.flag = flagOf b0 ∧
      i.operand.mode = addressModeOf b0 := by
  unfold decode at h
  split at h
  · cases h
  next b0 bs =>
    split at h
    · cases h
    next sc hsc =>
      split at h
      · cases h
      next frags bs' hfrags =>
        split at h
        · cases h
        next o rest' ho =>
          split at h
          · cases h
          next j hj =>
            cases h
            obtain ⟨hop, hflag, rfl⟩ := resolve_eq_ok.1 hj
            obtain ⟨rfl, -⟩ := takeFragments_eq_some hfrags
            obtain ⟨rfl, hmode⟩ := takeOperand_eq_some ho
            exact ⟨b0, sc, frags, rfl, hsc, hop, hflag, hmode⟩

/-! ### The encoder under an admitted table -/

/-- An instruction is encoded by whichever entry of an admitted table has its opcode (30_encoding.md R92). -/
theorem encode_of_mem (h : t.admitted = true) {e : IsaEntry} {i : Instr} (he : e ∈ t) (hop : e.op = i.opcode) :
    encode t i = e.encode i := by
  obtain ⟨e', hentry, -, -, -, honly⟩ := IsaTable.entryOf_of_admitted h i.opcode
  simp only [encode, hentry, ← honly e he hop]

/-- The bytes of an instruction by their parts (30_encoding.md R80, R81, R84, R92). -/
theorem encode_parts (h : t.admitted = true) (i : Instr) :
    ∃ e f0 fs, e ∈ t ∧ e.op = i.opcode ∧ e.frags = f0 :: fs ∧ f0.toNat < 8 ∧
      fs.length + 1 = e.sizeClass.controlBytes ∧
      encode t i = controlByte e.sizeClass i.flag i.operand.mode f0 :: (fs ++ i.operand.bytes) := by
  obtain ⟨e, -, hmem, hop, hfits, -⟩ := IsaTable.entryOf_of_admitted h i.opcode
  obtain ⟨f0, fs, hfrags, hlt, hcount⟩ := (IsaEntry.fits_iff e).1 hfits
  refine ⟨e, f0, fs, hmem, hop, hfrags, hlt, hcount, ?_⟩
  rw [encode_of_mem h hmem hop, IsaEntry.encode, hfrags, List.headD_cons, List.tail_cons]

theorem decode_encode (h : t.admitted = true) (i : Instr) (rest : List Byte) :
    decode t (encode t i ++ rest) = .ok (i, rest) := by
  obtain ⟨e, f0, fs, hmem, hop, hfrags, hlt, hcount, henc⟩ := encode_parts h i
  have hresolved : resolve t e.sizeClass (f0 :: fs) i.flag i.operand = .ok i :=
    resolve_eq_ok.2 ⟨by rw [← hfrags, ← hop, lookup_of_mem h hmem], rfl, rfl⟩
  rw [henc, List.cons_append, List.append_assoc,
    decode_parts t rest (sizeClassOf_controlByte ..) hcount (addressModeOf_controlByte ..).symm,
    frag0Of_controlByte _ _ _ _ hlt, flagOf_controlByte, hresolved]
  rfl

/-- Settles O1: the encoder writes each part where the decoder reads it, and the lookup finds the entry it wrote. -/
theorem decodeEncodeRoundTrip : Obligations.DecodeEncodeRoundTrip :=
  fun _ i rest h => decode_encode h i rest

/-- Settles O2: the entry the lookup found is the one that encodes the instruction, and control byte 0 is written back
by its own fields. -/
theorem encodeDecodeInverse : Obligations.EncodeDecodeInverse := by
  intro t bytes rest i h hdecode
  obtain ⟨b0, sc, frags, rfl, hsc, hlookup, hflag, hmode⟩ := decode_eq_ok hdecode
  obtain ⟨e, hmem, hop, rfl, hfrags⟩ := lookup_eq_some hlookup
  rw [encode_of_mem h hmem hop, IsaEntry.encode, hfrags, hflag, hmode, List.headD_cons,
    controlByte_fields b0 _ hsc]
  simp

/-- One round of `decodeAll`, for bytes that begin with an instruction. -/
theorem decodeAll_of_decode {n : Nat} {bytes rest : List Byte} {i : Instr} {is : List Instr}
    (h : decode t bytes = .ok (i, rest)) (hrest : decodeAll t n rest = .ok is) :
    decodeAll t (n + 1) bytes = .ok (i :: is) := by
  cases bytes with
  | nil => cases h
  | cons b bs => simp only [decodeAll, h, hrest]

theorem decodeAll_encodeAll (h : t.admitted = true) (is : List Instr) :
    decodeAll t is.length (encodeAll t is) = .ok is := by
  induction is with
  | nil => rfl
  | cons i is ih => exact decodeAll_of_decode (decode_encode h i _) ih

/-- Settles O3, by induction on the sequence: each round decodes one encoding and leaves the others. -/
theorem streamDecodesBack : Obligations.StreamDecodesBack :=
  fun _ is h => ⟨is, decodeAll_encodeAll h is, rfl, rfl⟩

/-- Settles O4: the entry's size class and the operand's mode are both written in control byte 0. -/
theorem encodingLengthFromByteZero : Obligations.EncodingLengthFromByteZero := by
  intro t i h
  obtain ⟨e, f0, fs, hmem, hop, -, -, hcount, henc⟩ := encode_parts h i
  have hlength : (encode t i).length = e.sizeClass.controlBytes + i.operand.mode.operandBytes := by
    rw [henc, List.length_cons, List.length_append, Operand.length_bytes]
    omega
  have hbyte0 : lengthOf (controlByte e.sizeClass i.flag i.operand.mode f0) = some (encode t i).length :=
    lengthOf_eq_some.2 ⟨_, sizeClassOf_controlByte .., by rw [hlength, addressModeOf_controlByte]⟩
  have hpos := controlBytes_pos e.sizeClass
  have hcontrol := controlBytes_le e.sizeClass
  have hoperand := operandBytes_le i.operand.mode
  exact ⟨e, _, _, hmem, hop, henc, hbyte0, hlength, by omega, by omega⟩

/-- Settles O5: what the lookup finds is an entry, and no other entry shares its class and fragments. -/
theorem lookupFindsTheEntry : Obligations.LookupFindsTheEntry := by
  refine fun t sc frags op h => ⟨lookup_eq_some, ?_⟩
  rintro ⟨e, hmem, rfl, rfl, rfl⟩
  exact lookup_of_mem h hmem

/-- Settles O6: an admitted table has an entry for every opcode, and all its entries fit. -/
theorem admittedTableEncodesAll : Obligations.AdmittedTableEncodesAll := by
  intro t i h
  obtain ⟨e, hentry, -, -, hfits, -⟩ := IsaTable.entryOf_of_admitted h i.opcode
  rw [Instr.wf, hentry]
  exact hfits

end Sys2Proof.Proofs
end

section
/-! SUPPORT. Statements about the fetch of an instruction and what its bytes decide (30_encoding.md R86, R91 to R100): a
step begins by fetching the bytes that control byte 0 asks for, and goes on with what the decoder makes of them. -/

namespace Sys2Proof.Proofs

open Sys2Proof.Machine Sys2Proof.Safety

variable {s t : State}

/-! ### The fetch -/

theorem fetchByte_of_permitted (hp : permitted s.cfg.regions s.pc .exec = true) :
    fetchByte s = .ok (s.byteAt s.pc, s.setPc (s.pc + 1#16)) := by
  rw [fetchByte, memRead, if_pos hp]

theorem fetchByte_of_denied (hd : permitted s.cfg.regions s.pc .exec = false) :
    fetchByte s = .error (raiseTrap .fetchViolation (.address s.pc) s) := by
  rw [fetchByte, memRead, hd]
  rfl

/-- A fetchable control byte 0 without a size class ends the fetch in a fatal stop (30_encoding.md R93). -/
theorem fetchInstr_of_no_length (hp : permitted s.cfg.regions s.pc .exec = true)
    (hlen : lengthOf (s.byteAt s.pc) = none) :
    fetchInstr s = .error (raiseFatal .invalidOpcode .none (s.setPc (s.pc + 1#16))) := by
  simp only [fetchInstr, fetchByte_of_permitted hp, hlen]

/-- With a fetchable control byte 0, the fetch goes on with the rest of the length it gives (30_encoding.md R85). -/
theorem fetchInstr_of_length {len : Nat} (hp : permitted s.cfg.regions s.pc .exec = true)
    (hlen : lengthOf (s.byteAt s.pc) = some len) :
    fetchInstr s =
      (fetchBytes (len - 1) (s.setPc (s.pc + 1#16))).map fun q => (s.byteAt s.pc :: q.1, q.2) := by
  simp only [fetchInstr, fetchByte_of_permitted hp, hlen]
  cases fetchBytes (len - 1) (s.setPc (s.pc + 1#16)) <;> rfl

/-- When all the bytes control byte 0 asks for may be fetched, they are. -/
theorem fetchInstr_of_permitted {len : Nat} (hlen : lengthOf (s.byteAt s.pc) = some len)
    (hp : ∀ k, k < len → permitted s.cfg.regions (s.pc + BitVec.ofNat 16 k) .exec = true) :
    ∃ bs, bs.length + 1 = len ∧
      fetchInstr s = .ok (s.byteAt s.pc :: bs, s.setPc (s.pc + BitVec.ofNat 16 len)) := by
  obtain ⟨n, rfl⟩ : ∃ n, len = n + 1 := by
    obtain ⟨sc, -, rfl⟩ := lengthOf_eq_some.1 hlen
    exact Nat.exists_eq_succ_of_ne_zero (Nat.ne_of_gt (Nat.add_pos_left (controlBytes_pos sc) _))
  obtain ⟨bs, hbs⟩ := fetchBytes_of_permitted n (s.setPc (s.pc + 1#16)) fun k hk => by
    simpa [addr_add_ofNat_succ] using hp (k + 1) (by omega)
  refine ⟨bs, congrArg (· + 1) (fetchBytes_ok hbs).1, ?_⟩
  rw [fetchInstr_of_length (by simpa using hp 0 (Nat.succ_pos n)) hlen, Nat.add_sub_cancel, hbs, State.setPc_pc,
    addr_add_ofNat_succ]
  rfl

/-- The fetch traps at the first byte that may not be fetched, with the PC there (30_encoding.md R86). -/
theorem fetchInstr_of_denied {n len : Nat} (hn : n = 0 ∨ lengthOf (s.byteAt s.pc) = some len ∧ n < len)
    (hp : ∀ k, k < n → permitted s.cfg.regions (s.pc + BitVec.ofNat 16 k) .exec = true)
    (hd : permitted s.cfg.regions (s.pc + BitVec.ofNat 16 n) .exec = false) :
    fetchInstr s =
      .error (raiseTrap .fetchViolation (.address (s.pc + BitVec.ofNat 16 n))
        (s.setPc (s.pc + BitVec.ofNat 16 n))) := by
  cases n with
  | zero =>
    rw [BitVec.add_zero] at hd ⊢
    simp only [fetchInstr, fetchByte_of_denied hd]
    rfl
  | succ n =>
    obtain ⟨hlen, hlt⟩ := hn.resolve_left (Nat.succ_ne_zero n)
    have hrest := fetchBytes_denied (n := len - 1) (m := n) (s.setPc (s.pc + 1#16)) (by omega)
      (fun k hk => by simpa [addr_add_ofNat_succ] using hp (k + 1) (by omega))
      (by simpa [addr_add_ofNat_succ] using hd)
    rw [fetchInstr_of_length (by simpa using hp 0 (Nat.succ_pos n)) hlen, hrest, State.setPc_pc,
      addr_add_ofNat_succ]
    rfl

/-- Fetched bytes begin with the byte at the PC, and as many follow as it asks for (30_encoding.md R85). -/
theorem fetchInstr_byteZero {b0 : Byte} {bs : List Byte} (h : fetchInstr s = .ok (b0 :: bs, t)) :
    b0 = s.byteAt s.pc ∧ lengthOf b0 = some (bs.length + 1) := by
  obtain ⟨hlen, -, hbytes⟩ := fetchInstr_ok h
  have hb0 : b0 = s.byteAt s.pc := by simpa using (hbytes 0 (Nat.succ_pos _)).1
  exact ⟨hb0, hb0 ▸ hlen⟩

/-- Settles O11: the two cases of a fetch, and what the fetch of a whole instruction has read. -/
theorem fetchAdvancesThePc : Obligations.FetchAdvancesThePc := by
  refine fun s => ⟨fetchByte_of_permitted, fetchByte_of_denied, fun bytes t h => ?_⟩
  obtain ⟨hlen, ht, hbytes⟩ := fetchInstr_ok h
  exact ⟨hlen, ht, fun k hk => (hbytes k hk).1⟩

/-! ### What the bytes decide -/

/-- A fetch that ends the step, ends it. -/
theorem step_of_fetchInstr_error (hs : s.status = .running) (h : fetchInstr (s.setStart s.pc) = .error t) :
    step s = .next t :=
  step_of_fetchDecode_error hs (by simp only [fetchDecode, h])

/-- The fetch of a whole instruction in a step leaves the state at its execution, or at its rejection. -/
theorem fetchInstr_afterFetch {bytes : List Byte} (h : fetchInstr (s.setStart s.pc) = .ok (bytes, t)) :
    t = afterFetch s bytes.length := by
  obtain ⟨-, ht, -⟩ := fetchInstr_ok h
  exact ht

/-- Fetched bytes that the decoder rejects stop the CPU with the cause of the rejection (30_encoding.md R97). -/
theorem step_of_rejected {bytes : List Byte} {r : Reject} (hs : s.status = .running)
    (h : fetchInstr (s.setStart s.pc) = .ok (bytes, t)) (hr : decode s.cfg.isaTable bytes = .error r) :
    step s = .next (raiseFatal (rejectCause r) .none t) := by
  refine step_of_fetchDecode_error hs ?_
  obtain rfl := fetchInstr_afterFetch h
  simp only [fetchDecode, h, afterFetch, hr]

/-- Fetched bytes that the decoder accepts are executed, with the PC past them (30_encoding.md R97, R98). -/
theorem step_of_decoded {bytes rest : List Byte} {i : Instr} (hs : s.status = .running)
    (h : fetchInstr (s.setStart s.pc) = .ok (bytes, t)) (hi : decode s.cfg.isaTable bytes = .ok (i, rest)) :
    step s = exec i t := by
  refine step_of_fetchDecode_ok hs ?_
  obtain rfl := fetchInstr_afterFetch h
  simp only [fetchDecode, h, afterFetch, hi]

/-- Settles O15: the fetch comes first in a step, and it stops at the first denied byte. -/
theorem firstDeniedFetchTraps : Obligations.FirstDeniedFetchTraps :=
  fun s _ _ hs hn hp hd => step_of_fetchInstr_error hs (fetchInstr_of_denied (s := s.setStart s.pc) hn hp hd)

/-- Settles O12: a byte below 0x40 has no size class, so it gives no length; memory at reset lists no byte. -/
theorem sizeClassZeroStops : Obligations.SizeClassZeroStops := by
  refine ⟨fun s hs hp hlt => ?_, resetWith_byteAt⟩
  have hlen : lengthOf (s.byteAt s.pc) = none := by rw [lengthOf, sizeClassOf_eq_none hlt, Option.map_none]
  exact step_of_fetchInstr_error hs (fetchInstr_of_no_length (s := s.setStart s.pc) hp hlen)

/-- Settles O13: the bytes past the control bytes are those of an operand, so the decoder gets to dispatch, and dispatch
rejects them. -/
theorem rejectedEncodingStops : Obligations.RejectedEncodingStops := by
  intro s t b0 frags operands sc hs hfetch hsc hfrags
  obtain rfl := fetchInstr_afterFetch hfetch
  have hcount : operands.length = (addressModeOf b0).operandBytes := by
    obtain ⟨sc', hsc', hlen⟩ := lengthOf_eq_some.1 (fetchInstr_byteZero hfetch).2
    obtain rfl : sc = sc' := Option.some.inj (hsc.symm.trans hsc')
    rw [List.length_append] at hlen
    omega
  obtain ⟨o, hmode, rfl⟩ := exists_operand_of_length hcount
  have hdecode := decode_parts s.cfg.isaTable [] hsc hfrags hmode
  rw [List.append_nil] at hdecode
  refine ⟨fun hnone => ?_, fun op hop hillegal => ?_⟩
  · rw [resolve_of_lookup_none _ _ hnone] at hdecode
    exact step_of_rejected hs hfetch hdecode
  · rw [resolve_of_illegal_mode _ hop (hmode ▸ hillegal)] at hdecode
    exact step_of_rejected hs hfetch hdecode

theorem defaultIsaTable_no_extra : ∀ e ∈ defaultIsaTable, e.sizeClass ≠ .extra := by decide

theorem lookup_extra_default (frags : List Byte) : lookup defaultIsaTable .extra frags = none := by
  refine Option.eq_none_iff_forall_ne_some.2 fun op hop => ?_
  obtain ⟨e, hmem, -, hsc, -⟩ := lookup_eq_some hop
  exact defaultIsaTable_no_extra e hmem hsc

/-- Settles O14: all the bytes are fetched, the lookup finds no Extra entry, and so they are rejected as in O13. -/
theorem extraEncodingsStop : Obligations.ExtraEncodingsStop := by
  refine ⟨defaultIsaTable_no_extra, ?_⟩
  rintro s len hs htable hextra rfl hp
  have hsc := sizeClassOf_eq_extra hextra
  have hlen : lengthOf (s.byteAt s.pc) = some (3 + (addressModeOf (s.byteAt s.pc)).operandBytes) :=
    lengthOf_eq_some.2 ⟨.extra, hsc, rfl⟩
  obtain ⟨bs, hcount, hfetch⟩ := fetchInstr_of_permitted (s := s.setStart s.pc) hlen hp
  have hfrags : (bs.take 2).length + 1 = SizeClass.extra.controlBytes := by
    rw [List.length_take, SizeClass.controlBytes]
    omega
  rw [← List.take_append_drop 2 bs] at hfetch
  exact (rejectedEncodingStops s _ _ _ _ .extra hs hfetch hsc hfrags).1 (htable ▸ lookup_extra_default _)

/-- An instruction that lies at the PC is what the step fetches. -/
theorem fetchInstr_of_placed {i : Instr} (h : s.cfg.isaTable.admitted = true) (hplaced : Placed i s.pc s) :
    fetchInstr s =
      .ok (encode s.cfg.isaTable i, s.setPc (s.pc + BitVec.ofNat 16 (encode s.cfg.isaTable i).length)) := by
  obtain ⟨-, b0, bs, -, -, henc, hlen, -⟩ := encodingLengthFromByteZero s.cfg.isaTable i h
  obtain ⟨hb0, -⟩ := hplaced 0 b0 (by rw [henc]; rfl)
  rw [BitVec.add_zero] at hb0
  rw [← hb0] at hlen
  obtain ⟨bs', hcount, hfetch⟩ := fetchInstr_of_permitted hlen fun k hk =>
    (hplaced k _ (List.getElem?_eq_getElem hk)).2
  obtain ⟨-, -, hbytes⟩ := fetchInstr_ok hfetch
  have hsame : s.byteAt s.pc :: bs' = encode s.cfg.isaTable i :=
    List.ext_getElem hcount fun k hk hk' => Option.some.inj <| by
      rw [← List.getElem?_eq_getElem hk, (hbytes k hk).1, (hplaced k _ (List.getElem?_eq_getElem hk')).1]
  rw [hfetch, hsame]

/-- Settles O9: what the step fetches is the instruction's encoding, and that decodes to the instruction. -/
theorem stepRunsDecodedInstruction : Obligations.StepRunsDecodedInstruction := by
  intro i s hs h hplaced
  have hdecode := decode_encode h i []
  rw [List.append_nil] at hdecode
  exact step_of_decoded hs (fetchInstr_of_placed (s := s.setStart s.pc) h hplaced) hdecode

/-! ### Ignored bits and examples -/

/-- Settles O8: the meaning of every instruction is a function of its operand alone, without the ignored flag and the
mode of an implicit operand. -/
theorem ignoredBitsChangeNothing : Obligations.IgnoredBitsChangeNothing := by
  intro i s
  cases i with
  | _ => rfl

/-- Settles O7, by evaluating the table's check and the decoder on each word. -/
theorem someWordsDecode : Obligations.SomeWordsDecode := by
  unfold Obligations.SomeWordsDecode
  decide

/-- Settles O56, by evaluating the assembler on each line. -/
theorem mnemonicsAssemble : Obligations.MnemonicsAssemble := by
  unfold Obligations.MnemonicsAssemble
  decide

end Sys2Proof.Proofs
end

section
/-! SUPPORT. Statements about loads and stores (40_load_store.md R120 to R129): each operand form has one outcome per
answer of the permission test once its register passes the capability check; STB and STC are stores of the register
that STORE_BY_NAME selects. -/

namespace Sys2Proof.Proofs

open Sys2Proof.Machine

variable {s : State} {r : Reg8} {addr : Addr}

/-! ### The capability check of one register -/

theorem withCaps_of_writable {effect : State → Result} (hw : (capOf s.cfg.regCaps (.reg8 r)).writable = true) :
    withCaps [] [.reg8 r] s effect = effect s :=
  withCaps_of_allowed effect nofun (List.forall_mem_singleton.2 hw)

theorem withCaps_of_readable {effect : State → Result} (hr : (capOf s.cfg.regCaps (.reg8 r)).readable = true) :
    withCaps [.reg8 r] [] s effect = effect s :=
  withCaps_of_allowed effect (List.forall_mem_singleton.2 hr) nofun

/-! ### Loads -/

theorem loadConst_of_writable {imm : Byte} (hw : (capOf s.cfg.regCaps (.reg8 r)).writable = true) :
    loadConst r imm s = .next (s.setReg r imm) :=
  withCaps_of_writable hw

theorem loadMem_of_permitted (hp : permitted s.cfg.regions addr .read = true)
    (hw : (capOf s.cfg.regCaps (.reg8 r)).writable = true) :
    loadMem r addr s = .next (s.setReg r (s.byteAt addr)) := by
  rw [loadMem, withCaps_of_writable hw, memRead, if_pos hp]

theorem loadMem_of_denied (hd : permitted s.cfg.regions addr .read = false)
    (hw : (capOf s.cfg.regCaps (.reg8 r)).writable = true) :
    loadMem r addr s = .next (raiseTrap .readViolation (.address addr) s) := by
  rw [loadMem, withCaps_of_writable hw, memRead, if_neg (Bool.eq_false_iff.1 hd)]

/-- Settles O35: a constant load is its capability check, then the write of its register. -/
theorem constantLoadsComplete : Obligations.ConstantLoadsComplete :=
  fun _ _ _ => ⟨loadConst_of_writable (r := .a), loadConst_of_writable (r := .b), loadConst_of_writable (r := .l),
    loadConst_of_writable (r := .h)⟩

/-- Settles O36: a permitted memory load writes its register with the byte read. -/
theorem memoryLoadsComplete : Obligations.MemoryLoadsComplete :=
  fun _ _ _ hp => ⟨loadMem_of_permitted (r := .a) hp, loadMem_of_permitted (r := .b) hp,
    loadMem_of_permitted (r := .l) hp, loadMem_of_permitted (r := .h) hp⟩

/-- Settles O37: a denied memory load traps in place of the write. -/
theorem deniedLoadsTrap : Obligations.DeniedLoadsTrap :=
  fun _ _ _ hd => ⟨loadMem_of_denied (r := .a) hd, loadMem_of_denied (r := .b) hd,
    loadMem_of_denied (r := .l) hd, loadMem_of_denied (r := .h) hd⟩

/-! ### Stores -/

theorem storeMem_of_permitted (hp : permitted s.cfg.regions addr .write = true)
    (hr : (capOf s.cfg.regCaps (.reg8 r)).readable = true) :
    storeMem r addr s = .next (s.setByte addr (s.reg r)) := by
  rw [storeMem, withCaps_of_readable hr, memWrite, if_pos hp]

theorem storeMem_of_denied (hd : permitted s.cfg.regions addr .write = false)
    (hr : (capOf s.cfg.regCaps (.reg8 r)).readable = true) :
    storeMem r addr s = .next (raiseTrap .writeViolation (.address addr) s) := by
  rw [storeMem, withCaps_of_readable hr, memWrite, if_neg (Bool.eq_false_iff.1 hd)]

/-- The outcome stores `v` at `addr`, and every other byte and every other field stays (20_memory.md R58). -/
def StoresOneByte (s : State) (addr : Addr) (v : Byte) (outcome : Result) : Prop :=
  ∃ t, outcome = .next t ∧ t.byteAt addr = v ∧
    (∀ other, other ≠ addr → t.byteAt other = s.byteAt other) ∧ t = { s with mem := t.mem }

theorem storeMem_storesOneByte (hp : permitted s.cfg.regions addr .write = true)
    (hr : (capOf s.cfg.regCaps (.reg8 r)).readable = true) :
    StoresOneByte s addr (s.reg r) (storeMem r addr s) :=
  ⟨_, storeMem_of_permitted hp hr, s.byteAt_setByte_same addr _, fun other h => s.byteAt_setByte_other addr other _ h,
    rfl⟩

theorem storeSource_by_name (h : s.cfg.storeByName = true) : storeSource s r = r := if_pos h

theorem storeSource_not_by_name (h : s.cfg.storeByName = false) : storeSource s r = .a :=
  if_neg (Bool.eq_false_iff.1 h)

theorem exec_stb (f : Bool) : exec (.stb f addr) s = storeMem (storeSource s .b) addr s := rfl

theorem exec_stc (f : Bool) : exec (.stc f addr) s = storeMem (storeSource s .c) addr s := rfl

/-- What a store does from every readable register, each of STA, STB and STC does from the register it stores: A, or B
and C when STORE_BY_NAME (40_load_store.md R122 to R125). -/
theorem store_forms {P : Reg8 → Result → Prop} (f : Bool)
    (h : ∀ r, (capOf s.cfg.regCaps (.reg8 r)).readable = true → P r (storeMem r addr s)) :
    (s.cfg.regCaps.a.readable = true → P .a (exec (.sta f addr) s)) ∧
    (s.cfg.storeByName = false → s.cfg.regCaps.a.readable = true →
      P .a (exec (.stb f addr) s) ∧ P .a (exec (.stc f addr) s)) ∧
    (s.cfg.storeByName = true → s.cfg.regCaps.b.readable = true → P .b (exec (.stb f addr) s)) ∧
    (s.cfg.storeByName = true → s.cfg.regCaps.c.readable = true → P .c (exec (.stc f addr) s)) := by
  rw [exec_stb, exec_stc]
  refine ⟨h .a, fun hname ha => ?_, fun hname hb => ?_, fun hname hc => ?_⟩
  · rw [storeSource_not_by_name hname, storeSource_not_by_name hname]
    exact ⟨h .a ha, h .a ha⟩
  · rw [storeSource_by_name hname]
    exact h .b hb
  · rw [storeSource_by_name hname]
    exact h .c hc

/-- Settles O38: each form is a store of one register, and a permitted store stores one byte. -/
theorem storesComplete : Obligations.StoresComplete :=
  fun f addr s hp => store_forms (P := fun r => StoresOneByte s addr (s.reg r)) f fun _ => storeMem_storesOneByte hp

/-- Settles O39: each form is a store of one register, which alone is checked before the denied access traps; a trap
leaves memory as it is. -/
theorem deniedStoresTrap : Obligations.DeniedStoresTrap := by
  intro f addr s hd
  obtain ⟨hsta, hdefault, hstb, hstc⟩ :=
    store_forms (P := fun _ outcome => outcome = .next (raiseTrap .writeViolation (.address addr) s)) f
      fun _ => storeMem_of_denied hd
  obtain ⟨-, -, -, -, -, -, hmem, -, -⟩ := raiseTrap_frame .writeViolation (.address addr) s
  exact ⟨hsta, hdefault, hstb, hstc, hmem⟩

end Sys2Proof.Proofs
end

section
/-! SUPPORT. Statements about arithmetic, logic and clearing (41_arith_logic.md R140 to R150): each form has its effect
once its registers pass the capability check, and each operation on bytes has its meaning on numbers or bits. -/

namespace Sys2Proof.Proofs

open Sys2Proof.Machine

/-! ### The operations on bytes -/

theorem addBytes_toNat (x y : Byte) : (addBytes x y).toNat = (x.toNat + y.toNat) % 256 := trunc8_toNat _

/-- The model adds 256 before it subtracts, which the remainder of the integer difference does not see
(41_arith_logic.md R147). -/
theorem subBytes_toNat (x y : Byte) : ((subBytes x y).toNat : Int) = ((x.toNat : Int) - (y.toNat : Int)) % 256 := by
  have hy := y.isLt
  rw [subBytes, trunc8_toNat]
  omega

theorem mulBytes_toNat (x y : Byte) : (mulBytes x y).toNat = x.toNat * y.toNat % 256 := trunc8_toNat _

/-- A quotient of bytes fits a byte, so truncation loses none of it. -/
theorem divBytes_toNat (x y : Byte) : (divBytes x y).toNat = x.toNat / y.toNat := by
  rw [divBytes, trunc8_toNat]
  exact Nat.mod_eq_of_lt ((Nat.div_le_self ..).trans_lt x.isLt)

/-- The quotient rounded down, by its two bounds. -/
theorem divBytes_bounds (x : Byte) {y : Byte} (hy : y ≠ 0x00#8) :
    (divBytes x y).toNat * y.toNat ≤ x.toNat ∧ x.toNat < ((divBytes x y).toNat + 1) * y.toNat := by
  have hpos : 0 < y.toNat := Nat.pos_of_ne_zero fun h => hy (BitVec.eq_of_toNat_eq h)
  rw [divBytes_toNat]
  exact ⟨Nat.div_mul_le_self .., (Nat.div_lt_iff_lt_mul hpos).1 (Nat.lt_succ_self _)⟩

theorem notByte_toNat (x : Byte) : (notByte x).toNat = 255 - x.toNat := by
  rw [notByte, BitVec.toNat_not]

theorem equalByte_of_eq {x y : Byte} (h : x.toNat = y.toNat) : equalByte x y = 0x01#8 := by
  rw [equalByte, beq_iff_eq.2 (BitVec.eq_of_toNat_eq h), truthByte, if_pos rfl]

theorem equalByte_of_ne {x y : Byte} (h : x.toNat ≠ y.toNat) : equalByte x y = 0x00#8 := by
  rw [equalByte, beq_eq_false_iff_ne.2 fun hxy => h (congrArg _ hxy), truthByte, if_neg Bool.false_ne_true]

theorem lessByte_of_lt {x y : Byte} (h : x.toNat < y.toNat) : lessByte x y = 0x01#8 := by
  rw [lessByte, decide_eq_true h, truthByte, if_pos rfl]

theorem lessByte_of_le {x y : Byte} (h : y.toNat ≤ x.toNat) : lessByte x y = 0x00#8 := by
  rw [lessByte, decide_eq_false h.not_gt, truthByte, if_neg Bool.false_ne_true]

/-! ### The forms past their capability check -/

section
variable {s : State} (ha : s.cfg.regCaps.a.readable = true) (hb : s.cfg.regCaps.b.readable = true)
  (hc : s.cfg.regCaps.c.writable = true)
include ha hb hc

/-- The check that every instruction from A and B to C begins with (41_arith_logic.md R148). -/
theorem withCaps_of_alu_allowed (effect : State → Result) :
    withCaps [.reg8 .a, .reg8 .b] [.reg8 .c] s effect = effect s :=
  withCaps_of_allowed effect (List.forall_mem_cons.2 ⟨ha, List.forall_mem_singleton.2 hb⟩)
    (List.forall_mem_singleton.2 hc)

theorem aluOp_of_allowed (f : Byte → Byte → Byte) : aluOp f s = .next { s with c := f s.a s.b } :=
  withCaps_of_alu_allowed ha hb hc _

theorem execDiv_of_ne_zero (m : ImplicitMode) (hz : s.b ≠ 0x00#8) :
    execDiv m s = .next { s with c := divBytes s.a s.b } := by
  rw [execDiv, withCaps_of_alu_allowed ha hb hc, if_neg (hz ∘ (isZero_eq_true s.b).1)]
  rfl

theorem execDiv_of_zero (m : ImplicitMode) (hz : s.b = 0x00#8) :
    execDiv m s = .next (raiseTrap .divideByZero .none s) := by
  rw [execDiv, withCaps_of_alu_allowed ha hb hc, if_pos ((isZero_eq_true s.b).2 hz)]

end

/-- A complement needs only the register it complements to be readable (41_arith_logic.md R143). -/
theorem aluOp1_of_allowed {s : State} {r : Reg8} (hr : (capOf s.cfg.regCaps (.reg8 r)).readable = true)
    (hc : s.cfg.regCaps.c.writable = true) (f : Byte → Byte) : aluOp1 r f s = .next { s with c := f (s.reg r) } :=
  withCaps_of_allowed _ (List.forall_mem_singleton.2 hr) (List.forall_mem_singleton.2 hc)

theorem execZero_of_allowed {s : State} (f : Bool) (m : ImplicitMode) (ha : s.cfg.regCaps.a.writable = true)
    (hb : s.cfg.regCaps.b.writable = true) (hc : s.cfg.regCaps.c.writable = true) :
    execZero f m s = .next { s with a := 0x00#8, b := 0x00#8, c := 0x00#8 } := by
  have hw : ∀ r ∈ [CapReg.reg8 .a, .reg8 .b, .reg8 .c], (capOf s.cfg.regCaps r).writable = true :=
    List.forall_mem_cons.2 ⟨ha, List.forall_mem_cons.2 ⟨hb, List.forall_mem_singleton.2 hc⟩⟩
  exact withCaps_of_allowed _ (List.forall_mem_nil _) hw

theorem execCld_of_allowed {s : State} (f : Bool) (m : ImplicitMode) (hl : s.cfg.regCaps.l.writable = true)
    (hh : s.cfg.regCaps.h.writable = true) : execCld f m s = .next { s with l := 0x00#8, h := 0x00#8 } := by
  have hw : ∀ r ∈ [CapReg.reg8 .l, .reg8 .h], (capOf s.cfg.regCaps r).writable = true :=
    List.forall_mem_cons.2 ⟨hl, List.forall_mem_singleton.2 hh⟩
  exact withCaps_of_allowed _ (List.forall_mem_nil _) hw

/-! ### The statements -/

/-- Settles O40: both are the ALU form, of the sum and of the difference. -/
theorem addAndSubtractComplete : Obligations.AddAndSubtractComplete :=
  fun _ s ha hb hc => ⟨⟨_, aluOp_of_allowed ha hb hc addBytes, addBytes_toNat s.a s.b⟩,
    _, aluOp_of_allowed ha hb hc subBytes, subBytes_toNat s.a s.b⟩

/-- Settles O41: MUL is the ALU form of the product, and DIV writes the quotient when its divisor is not 0. -/
theorem multiplyAndDivideComplete : Obligations.MultiplyAndDivideComplete :=
  fun m s ha hb hc => ⟨⟨_, aluOp_of_allowed ha hb hc mulBytes, mulBytes_toNat s.a s.b⟩,
    fun hz => ⟨_, execDiv_of_ne_zero ha hb hc m hz, divBytes_bounds s.a hz⟩⟩

/-- Settles O42: past the capability check a divisor of 0 traps in place of the write, and a trap leaves C as it is. -/
theorem divideByZeroTraps : Obligations.DivideByZeroTraps := by
  intro m s ha hb hc hz
  obtain ⟨-, -, hkept, -⟩ := raiseTrap_frame .divideByZero .none s
  exact ⟨execDiv_of_zero ha hb hc m hz, hkept⟩

/-- Settles O43: both are the ALU form, and each comparison's byte is decided by the operands' numbers. -/
theorem comparesComplete : Obligations.ComparesComplete := by
  intro m s ha hb hc
  have hequal : exec (.cmpEq m) s = .next { s with c := equalByte s.a s.b } := aluOp_of_allowed ha hb hc equalByte
  have hless : exec (.cmpLt m) s = .next { s with c := lessByte s.a s.b } := aluOp_of_allowed ha hb hc lessByte
  rw [hequal, hless]
  refine ⟨fun h => ?_, fun h => ?_, fun h => ?_, fun h => ?_⟩
  · rw [equalByte_of_eq h]
  · rw [equalByte_of_ne h]
  · rw [lessByte_of_lt h]
  · rw [lessByte_of_le h]

/-- Settles O44: both are the one-register form, of A and of B. -/
theorem complementsComplete : Obligations.ComplementsComplete :=
  fun _ s hc => ⟨fun ha => ⟨_, aluOp1_of_allowed (r := .a) ha hc notByte, notByte_toNat s.a⟩,
    fun hb => ⟨_, aluOp1_of_allowed (r := .b) hb hc notByte, notByte_toNat s.b⟩⟩

/-- Settles O45: all three are the ALU form, and the library's word operations act bit by bit. -/
theorem bitwiseOpsComplete : Obligations.BitwiseOpsComplete :=
  fun _ _ _ ha hb hc => ⟨⟨_, aluOp_of_allowed ha hb hc andBytes, fun _ => BitVec.getLsbD_and⟩,
    ⟨_, aluOp_of_allowed ha hb hc xorBytes, fun _ => BitVec.getLsbD_xor⟩,
    _, aluOp_of_allowed ha hb hc orBytes, fun _ => BitVec.getLsbD_or⟩

/-- Settles O46: both check every register they clear, then clear them one after another. -/
theorem clearingComplete : Obligations.ClearingComplete :=
  fun f m _ => ⟨execZero_of_allowed f m, execCld_of_allowed f m⟩

end Sys2Proof.Proofs
end

section
/-! SUPPORT. Statements about control transfer and halt (42_control.md R170 to R178): a jump writes the PC and fetches
nothing, so its target is checked by the next step; a step carries a change of the parameters that no rule reads. -/

namespace Sys2Proof.Proofs

open Sys2Proof.Machine Sys2Proof.Safety

/-! ### The three outcomes of a trap -/

section Traps

variable {s : State} (c : TrapCause) (info : Info)

/-- Under policy HALT a trap stops the CPU (60_exceptions.md R205). -/
theorem raiseTrap_of_policy_halt (hp : s.cfg.policy = .halt) :
    raiseTrap c info s =
      { s with status := .fatal, cause := .trap c, events := s.events ++ [⟨.trap c, info, s.start⟩] } := by
  simp only [raiseTrap, hp]
  rfl

/-- Under policy TRAP a trap of the instruction at the panic address is a double fault (60_exceptions.md R208). -/
theorem raiseTrap_of_start_eq_panic (hp : s.cfg.policy = .trap) (h : s.start = s.cfg.panicAddr) :
    raiseTrap c info s = raiseFatal .doubleFault (.inner c) s := by
  simp only [raiseTrap, hp, if_pos h]

/-- Under policy TRAP a trap of any other instruction enters the handler (60_exceptions.md R205). -/
theorem raiseTrap_of_start_ne_panic (hp : s.cfg.policy = .trap) (h : s.start ≠ s.cfg.panicAddr) :
    raiseTrap c info s =
      { s with lrap := s.start, pc := s.cfg.panicAddr, events := s.events ++ [⟨.trap c, info, s.start⟩] } := by
  simp only [raiseTrap, hp, if_neg h]
  rfl

end Traps

/-! ### The parameters no rule reads -/

/-- An outcome whose next state is a function of another's is that other outcome with the function applied. -/
theorem eq_mapNext_of_related {f : State → State} {x y : Result} (h : Related (fun s t => t = f s) x y) :
    y = mapNext f x := by
  unfold Related at h
  split at h
  · exact congrArg Host.Outcome.next h
  · exact congrArg Host.Outcome.fault h.symm
  · exact congrArg Host.Outcome.refused h.symm
  · exact h.elim

section Reconfigured

variable (initAddr endAddr : Addr) (throttle : Nat) (maxRomSize : Addr) (verifyHash : Bool)

/-- A trap reads the policy and the panic address, which are not among the parameters changed
(60_exceptions.md R205, R208). -/
theorem raiseTrap_reconfigured (c : TrapCause) (info : Info) (s : State) :
    raiseTrap c info (reconfigured initAddr endAddr throttle maxRomSize verifyHash s) =
      reconfigured initAddr endAddr throttle maxRomSize verifyHash (raiseTrap c info s) := by
  rcases raiseTrap_cases c info s with ⟨hp, h⟩ | ⟨hp, hpanic, h⟩ | ⟨hp, hpanic, h⟩ <;> rw [h]
  · exact raiseTrap_of_policy_halt c info hp
  · exact raiseTrap_of_start_eq_panic c info hp hpanic
  · exact raiseTrap_of_start_ne_panic c info hp hpanic

/-- Of the parameters, PANIC reads the panic address, STB and STC read STORE_BY_NAME, and no other effect reads one. -/
theorem completed_reconfigured (i : Instr) (s : State) :
    completed (reconfigured initAddr endAddr throttle maxRomSize verifyHash s) i =
      reconfigured initAddr endAddr throttle maxRomSize verifyHash (completed s i) := by
  cases i with
  | jz f addr | jnz f addr =>
    simp only [completed, jumpIf_eq]
    rfl
  | _ => rfl

/-- A step carries other values of these parameters: neither a fetch nor a check nor an effect reads one. -/
theorem reconfigured_stepSimulation :
    StepSimulation (fun s t => t = reconfigured initAddr endAddr throttle maxRomSize verifyHash s)
      (fun s t => t = reconfigured initAddr endAddr throttle maxRomSize verifyHash s) where
  pc_eq := fun h => h ▸ rfl
  isaTable_eq := fun h => h ▸ rfl
  regCaps_eq := fun h => h ▸ rfl
  storeByName_eq := fun h => h ▸ rfl
  fetched_eq := fun h => h ▸ rfl
  laterFault_eq := fun h i => by
    subst h
    cases i <;> rfl
  setPc := fun h _ => h ▸ rfl
  raiseTrap := fun h c info => h ▸ raiseTrap_reconfigured _ _ _ _ _ c info _
  raiseFatal := fun h _ _ => h ▸ rfl
  completed := fun h i _ => h ▸ completed_reconfigured _ _ _ _ _ i _

end Reconfigured

/-- Settles O22: the changed parameters are carried by a step, which is the commuting equation. -/
theorem unreadParametersHaveNoEffect : Obligations.UnreadParametersHaveNoEffect :=
  fun initAddr endAddr maxRomSize throttle verifyHash _ => eq_mapNext_of_related
    ((reconfigured_stepSimulation initAddr endAddr throttle maxRomSize verifyHash).step rfl rfl)

/-! ### Jumps -/

section Jumps

variable {s : State} {addr : Addr} (f : Bool)

theorem exec_jmp : exec (.jmp f addr) s = .next { s with pc := addr } := rfl

/-- JZ with C readable goes by whether C is zero (42_control.md R171). -/
theorem exec_jz_of_readable (hc : s.cfg.regCaps.c.readable = true) :
    exec (.jz f addr) s = .next (jumpIf (isZero s.c) addr s) :=
  withCaps_of_readable (r := .c) (effect := fun s => .next (jumpIf (isZero s.c) addr s)) hc

/-- JNZ with C readable goes by whether C is not zero (42_control.md R172). -/
theorem exec_jnz_of_readable (hc : s.cfg.regCaps.c.readable = true) :
    exec (.jnz f addr) s = .next (jumpIf (!isZero s.c) addr s) :=
  withCaps_of_readable (r := .c) (effect := fun s => .next (jumpIf (!isZero s.c) addr s)) hc

end Jumps

/-- Settles O47: JMP always jumps; JZ and JNZ, past their capability check, jump on opposite answers of one test. -/
theorem jumpsComplete : Obligations.JumpsComplete := by
  refine fun f addr s => ⟨exec_jmp f, fun hc hzero => ?_, fun hc hzero => ?_⟩
  · have htest : isZero s.c = true := (isZero_eq_true s.c).2 hzero
    rw [exec_jz_of_readable f hc, exec_jnz_of_readable f hc, htest]
    exact ⟨rfl, rfl⟩
  · have htest : isZero s.c = false := Bool.eq_false_iff.2 (hzero ∘ (isZero_eq_true s.c).1)
    rw [exec_jz_of_readable f hc, exec_jnz_of_readable f hc, htest]
    exact ⟨rfl, rfl⟩

/-! ### The target of a jump -/

/-- A step whose first fetch is denied traps with the PC as its start and as the denied address
(30_encoding.md R86, R97). -/
theorem step_of_pc_denied {s : State} (hs : s.status = .running)
    (hd : permitted s.cfg.regions s.pc .exec = false) :
    step s = .next (raiseTrap .fetchViolation (.address s.pc) { s with start := s.pc }) := by
  simpa using firstDeniedFetchTraps s 0 0 hs (.inl rfl) nofun (by simpa using hd)

/-- Settles O48: a jump does not fetch, so it completes as O47 says; the next step fetches at the target first, and the
trap there has one outcome per policy and start. -/
theorem jumpTargetIsCheckedAtTheNextFetch : Obligations.JumpTargetIsCheckedAtTheNextFetch := by
  intro f addr s hs hd
  obtain ⟨hjmp, hzero, hnonzero⟩ := jumpsComplete f addr s
  have hstep := step_of_pc_denied (s := s.setPc addr) hs hd
  refine ⟨hjmp, fun hc hz => (hzero hc hz).1, fun hc hz => (hnonzero hc hz).2, fun hp => ?_, fun hp hpanic => ?_,
    fun hp hpanic => ?_⟩
  · exact hstep.trans (congrArg _ (raiseTrap_of_policy_halt _ _ hp))
  · exact hstep.trans (congrArg _ (raiseTrap_of_start_eq_panic _ _ hp hpanic))
  · exact hstep.trans (congrArg _ (raiseTrap_of_start_ne_panic _ _ hp hpanic))

/-! ### Halt -/

/-- Settles O49: HLT is the model's halted stop, and a CPU that is not running takes no step. -/
theorem haltCompletes : Obligations.HaltCompletes :=
  fun _ _ s => ⟨congrArg Host.Outcome.next (stopHalted_eq s), step_of_stopped nofun⟩

end Sys2Proof.Proofs
end

section
/-! SUPPORT. Statements about the no-ops and the bank selects (43_system.md R190 to R193): a bank select is its capability
check for M, then the write of M. -/

namespace Sys2Proof.Proofs

open Sys2Proof.Machine

/-! ### No-ops -/

theorem exec_nop (f : Bool) (m : ImplicitMode) (s : State) : exec (.nop f m) s = .next s := rfl

theorem exec_syscall (f : Bool) (m : ImplicitMode) (s : State) : exec (.syscall f m) s = .next s := rfl

/-- Settles O50: neither has a check or an effect. -/
theorem noOpsComplete : Obligations.NoOpsComplete :=
  fun f m s => ⟨exec_nop f m s, exec_syscall f m s⟩

/-! ### Bank selects -/

/-- The write of M that both bank selects are, past their capability check (10_state.md R27). -/
theorem withCaps_setM_of_writable {s : State} (hm : s.cfg.regCaps.m.writable = true) (v : Bit) :
    withCaps [] [.m] s (fun s => .next (s.setM v)) = .next { s with m := v } :=
  withCaps_of_allowed _ (List.forall_mem_nil _) (List.forall_mem_singleton.2 hm)

/-- Settles O51: both are the write of M, of 0 and of 1. -/
theorem bankSelectsComplete : Obligations.BankSelectsComplete :=
  fun _ _ _ hm => ⟨withCaps_setM_of_writable hm 0#1, withCaps_setM_of_writable hm 1#1⟩

end Sys2Proof.Proofs
end

section
/-! SUPPORT. Statements about traps and stops (60_exceptions.md R200 to R213): a step whose checks all pass, other than
HLT's, is silent, and every other step leaves one record; what a trap, a fatal stop and PANIC change. -/

namespace Sys2Proof.Proofs

open Sys2Proof.Machine Sys2Proof.Safety

/-! ### The checks of an instruction -/

/-- The checks after the capability check pass together: the divisor of DIV and the data access
(60_exceptions.md R210, checks 8 and 9). -/
theorem laterFault_eq_none (s : State) (i : Instr) :
    laterFault s i = none ↔
      (∀ m, i = .div m → s.b ≠ 0x00#8) ∧
        ∀ addr mode, dataAccess i = some (addr, mode) → permitted s.cfg.regions addr mode = true := by
  cases i with
  | div m => simp [laterFault, dataAccess, isZero]
  | _ => simp [laterFault, dataAccess]

theorem checksPass_iff (i : Instr) (s : State) :
    ChecksPass i s ↔
      firstViolation s.cfg.regCaps ((checkedReads s.cfg i).map .reg8) (checkedWrites i) = none ∧
        laterFault s i = none := by
  rw [firstViolation_eq_none, laterFault_eq_none, List.forall_mem_map, and_assoc]
  rfl

/-- An instruction whose checks all pass has its effect. -/
theorem exec_of_checksPass {i : Instr} {s : State} (h : ChecksPass i s) : exec i s = .next (completed s i) := by
  obtain ⟨hcaps, hlater⟩ := (checksPass_iff i s).1 h
  rw [exec_eq_withCaps, withCaps, hcaps]
  exact afterCaps_of_none hlater

/-- An instruction with a check that fails traps. -/
theorem exec_of_not_checksPass {i : Instr} {s : State} (h : ¬ ChecksPass i s) :
    ∃ c info, exec i s = .next (raiseTrap c info s) := by
  rcases withCaps_cases ((checkedReads s.cfg i).map .reg8) (checkedWrites i) s (afterCaps i) with
    ⟨hcaps, heq⟩ | ⟨r, -, heq⟩ <;> rw [exec_eq_withCaps, heq]
  · cases hlater : laterFault s i with
    | none => exact absurd ((checksPass_iff i s).2 ⟨hcaps, hlater⟩) h
    | some fault => exact ⟨_, _, afterCaps_of_fault hlater⟩
  · exact ⟨_, _, rfl⟩

/-! ### Records -/

/-- The CPU goes on with no record. -/
def GoesOnSilently (s t : State) : Prop :=
  t.events = s.events ∧ t.status = .running ∧ t.cause = s.cause

/-- One record is left, with the `start` of the first state, and the CPU has stopped fatally with the record's cause,
has halted, or has entered the handler (60_exceptions.md R203, R205, R209; for HLT log entry 5). -/
def LeavesRecord (s t : State) : Prop :=
  ∃ e, t.events = s.events ++ [e] ∧ e.start = s.start ∧
    ((t.status = .fatal ∧ t.cause = e.cause) ∨
      (t.status = .halted ∧ t.cause = .halt ∧ e.cause = .halt ∧ e.info = .none) ∨
      (t.status = .running ∧ s.cfg.policy = .trap ∧ t.lrap = s.start ∧ t.pc = s.cfg.panicAddr ∧
        ∃ c : TrapCause, e.cause = .trap c))

theorem LeavesRecord.events_ne {s t : State} (h : LeavesRecord s t) : t.events ≠ s.events := by
  obtain ⟨e, hevents, -⟩ := h
  simp [hevents]

theorem raiseFatal_leavesRecord (c : FatalCause) (info : Info) (s : State) :
    LeavesRecord s (raiseFatal c info s) :=
  ⟨_, rfl, rfl, .inl ⟨rfl, rfl⟩⟩

theorem stopHalted_leavesRecord (s : State) : LeavesRecord s (stopHalted s) :=
  ⟨_, rfl, rfl, .inr (.inl ⟨rfl, rfl, rfl, rfl⟩)⟩

theorem raiseTrap_leavesRecord {s : State} (hs : s.status = .running) (c : TrapCause) (info : Info) :
    LeavesRecord s (raiseTrap c info s) := by
  rcases raiseTrap_cases c info s with ⟨-, h⟩ | ⟨-, -, h⟩ | ⟨hp, -, h⟩ <;> rw [h]
  · exact ⟨_, rfl, rfl, .inl ⟨rfl, rfl⟩⟩
  · exact raiseFatal_leavesRecord _ _ s
  · exact ⟨_, rfl, rfl, .inr (.inr ⟨hs, hp, rfl, rfl, c, rfl⟩)⟩

/-- No effect but HLT's touches the event output, the status or the cause. -/
theorem completed_goesOnSilently {i : Instr} {s : State} (hs : s.status = .running) (hi : i.opcode ≠ .hlt) :
    GoesOnSilently s (completed s i) := by
  obtain ⟨-, -, -, hstatus, hcause, hevents⟩ := completed_control i s
  exact ⟨not_not.1 (mt hevents hi), (not_not.1 (mt hstatus hi)).trans hs, not_not.1 (mt hcause hi)⟩

theorem completed_of_hlt {i : Instr} (s : State) (hi : i.opcode = .hlt) : completed s i = stopHalted s := by
  cases i with
  | hlt f m => rfl
  | _ => cases hi

/-- An instruction other than HLT goes on silently when its checks pass, and every other execution leaves a record. -/
theorem exec_silent_or_record {i : Instr} {s t : State} (hs : s.status = .running) (h : exec i s = .next t) :
    ((i.opcode ≠ .hlt ∧ ChecksPass i s) ∧ GoesOnSilently s t) ∨
      (¬ (i.opcode ≠ .hlt ∧ ChecksPass i s) ∧ LeavesRecord s t) := by
  by_cases hchecks : ChecksPass i s
  · rw [exec_of_checksPass hchecks] at h
    cases h
    by_cases hi : i.opcode = .hlt
    · exact .inr ⟨fun hpass => hpass.1 hi, completed_of_hlt s hi ▸ stopHalted_leavesRecord s⟩
    · exact .inl ⟨⟨hi, hchecks⟩, completed_goesOnSilently hs hi⟩
  · obtain ⟨c, info, htrap⟩ := exec_of_not_checksPass hchecks
    rw [htrap] at h
    cases h
    exact .inr ⟨fun hpass => hchecks hpass.2, raiseTrap_leavesRecord hs c info⟩

/-- The step fetches and decodes an instruction other than HLT, and all its checks pass. -/
def FetchesAndPasses (s : State) : Prop :=
  ∃ i u, fetchDecode s = .ok (i, u) ∧ i.opcode ≠ .hlt ∧ ChecksPass i u

theorem fetchesAndPasses_of_ok {s u : State} {i : Instr} (h : fetchDecode s = .ok (i, u)) :
    FetchesAndPasses s ↔ i.opcode ≠ .hlt ∧ ChecksPass i u := by
  refine ⟨fun ⟨j, v, hjv, hpass⟩ => ?_, fun hpass => ⟨i, u, h, hpass⟩⟩
  cases h.symm.trans hjv
  exact hpass

theorem not_fetchesAndPasses_of_error {s t : State} (h : fetchDecode s = .error t) : ¬ FetchesAndPasses s := by
  rintro ⟨i, u, hok, -⟩
  cases h.symm.trans hok

/-- The fetch stages end a step in a trap or in a fatal stop (60_exceptions.md R210, checks 1 to 6). -/
theorem fetchDecode_error_leavesRecord {s t : State} (hs : s.status = .running) (h : fetchDecode s = .error t) :
    ∃ n, LeavesRecord (afterFetch s n) t := by
  rcases fetchDecode_error h with ⟨n, info, rfl⟩ | ⟨n, c, -, rfl⟩
  · exact ⟨n, raiseTrap_leavesRecord (s := afterFetch s n) hs _ info⟩
  · exact ⟨n, raiseFatal_leavesRecord c _ _⟩

/-- A step is silent or leaves a record with its own `start`, by whether it fetches, decodes and passes all checks. -/
theorem step_silent_or_record {s t : State} (h : step s = .next t) :
    (FetchesAndPasses s ∧ GoesOnSilently s t) ∨
      (¬ FetchesAndPasses s ∧ ∃ n, LeavesRecord (afterFetch s n) t) := by
  obtain ⟨hs, -⟩ := step_cases h
  cases hf : fetchDecode s with
  | error u =>
    rw [step_of_fetchDecode_error hs hf] at h
    cases h
    exact .inr ⟨not_fetchesAndPasses_of_error hf, fetchDecode_error_leavesRecord hs hf⟩
  | ok r =>
    obtain ⟨i, u⟩ := r
    obtain ⟨n, rfl⟩ := fetchDecode_ok hf
    rw [step_of_fetchDecode_ok hs hf] at h
    rw [fetchesAndPasses_of_ok hf]
    exact (exec_silent_or_record (s := afterFetch s n) hs h).imp_right fun ⟨hfail, hrecord⟩ => ⟨hfail, n, hrecord⟩

/-- Settles O24: a step is silent or leaves one record, and the two exclude each other. -/
theorem atMostOneEventPerStep : Obligations.AtMostOneEventPerStep := by
  intro s t h
  rcases step_silent_or_record h with ⟨hpass, hsilent⟩ | ⟨hfail, n, hrecord⟩
  · exact ⟨iff_of_true hsilent.1 hpass, .inl hsilent⟩
  · exact ⟨iff_of_false hrecord.events_ne hfail, .inr hrecord⟩

/-! ### Precision -/

/-- The same registers but for LRAP and the PC, and the same memory: what a trap keeps (60_exceptions.md R206). -/
def SameData (s t : State) : Prop :=
  t.a = s.a ∧ t.b = s.b ∧ t.c = s.c ∧ t.l = s.l ∧ t.h = s.h ∧ t.m = s.m ∧ t.mem = s.mem

theorem raiseTrap_sameData (c : TrapCause) (info : Info) (s : State) : SameData s (raiseTrap c info s) := by
  obtain ⟨ha, hb, hc, hl, hh, hm, hmem, -, -⟩ := raiseTrap_frame c info s
  exact ⟨ha, hb, hc, hl, hh, hm, hmem⟩

/-- Of an instruction's effects only a trap and HLT emit an event, and they write no data. -/
theorem execEffect_sameData {s t : State} (he : ExecEffect s t) (hevents : t.events ≠ s.events) : SameData s t := by
  cases he with
  | trapped c info => exact raiseTrap_sameData c info s
  | halted => exact ⟨rfl, rfl, rfl, rfl, rfl, rfl, rfl⟩
  | register r v => exact absurd (s.setReg_events r v) hevents
  | clearedABC | clearedLH | stored addr v _ | bank v | jumped target | panicked | nothing => exact absurd rfl hevents

/-- Settles O25: the fetch stages write no data, and neither does any way to end a step with an event. -/
theorem faultsArePrecise : Obligations.FaultsArePrecise := by
  intro s t h hevents
  obtain ⟨-, n, ⟨info, rfl⟩ | ⟨c, -, rfl⟩ | ⟨i, -, -, he⟩⟩ := step_cases h
  · exact raiseTrap_sameData _ info (afterFetch s n)
  · exact ⟨rfl, rfl, rfl, rfl, rfl, rfl, rfl⟩
  · exact execEffect_sameData (s := afterFetch s n) he hevents

/-! ### Trap entry, fatal stops and PANIC -/

/-- Settles O26: a trap has one outcome per policy and start. -/
theorem trapEntryCases : Obligations.TrapEntryCases :=
  ⟨rfl, fun c info s => ⟨raiseTrap_of_policy_halt c info,
    fun hp hpanic => (raiseTrap_of_start_eq_panic c info hp hpanic).trans (raiseFatal_eq _ _ s),
    raiseTrap_of_start_ne_panic c info⟩⟩

/-- Settles O27: the status after a fatal stop is FATAL, and a CPU that is not running takes no step. -/
theorem fatalStopEndsTheRun : Obligations.FatalStopEndsTheRun :=
  fun c info s => ⟨raiseFatal_eq c info s, step_of_stopped nofun⟩

theorem exec_panic (f : Bool) (m : ImplicitMode) (s : State) :
    exec (.panic f m) s = .next { s with lrap := s.pc, pc := s.cfg.panicAddr } := rfl

/-- Settles O28: PANIC asks neither the policy nor `start`, and a trap that enters the handler links `start`. -/
theorem panicIsNoFault : Obligations.PanicIsNoFault :=
  fun f m s => ⟨exec_panic f m s,
    fun c info hp hpanic => congrArg State.lrap (raiseTrap_of_start_ne_panic c info hp hpanic)⟩

/-! ### Cause codes -/

/-- The causes in the order of the table (60_exceptions.md R200). -/
def allCauses : List StopCause :=
  [.none, .trap .fetchViolation, .trap .readViolation, .trap .writeViolation, .trap .capabilityViolation,
    .trap .divideByZero, .fatal .invalidOpcode, .fatal .illegalAddressMode, .fatal .doubleFault, .halt]

theorem mem_allCauses (c : StopCause) : c ∈ allCauses := by
  cases c with
  | none | halt => decide
  | trap c => cases c <;> decide
  | fatal c => cases c <;> decide

theorem allCauses_codes : allCauses.map StopCause.code = [0, 1, 2, 3, 4, 5, 16, 17, 18, 32] := rfl

/-- Settles O29: the table lists every cause, and its codes have no duplicate. -/
theorem causeCodesAreDistinct : Obligations.CauseCodesAreDistinct := by
  have hnodup : (allCauses.map StopCause.code).Nodup := by
    rw [allCauses_codes]
    decide
  exact ⟨fun c d => List.inj_on_of_nodup_map hnodup (mem_allCauses c) (mem_allCauses d), allCauses_codes⟩

end Sys2Proof.Proofs
end

section
/-! SUPPORT. Statements about the boot (70_reset_and_hazards.md R240 to R249): which files the loader accepts, what the
image copy leaves in memory, and that a file the ROM writer makes passes every check of the loader. -/

namespace Sys2Proof.Proofs

open Sys2Proof.Machine

/-! ### The length of a hash -/

theorem length_shaRound (v : List Word32) (k w : Word32) : (shaRound v k w).length = v.length := by
  unfold shaRound
  split <;> rfl

theorem length_shaRounds (ks ws v : List Word32) : (shaRounds ks ws v).length = v.length := by
  induction ks generalizing ws v with
  | nil => rfl
  | cons k ks ih =>
    cases ws with
    | nil => rfl
    | cons w ws => exact (ih ws _).trans (length_shaRound v k w)

theorem length_shaBlocks (n : Nat) (bs : List Byte) (hash : List Word32) :
    (shaBlocks n bs hash).length = hash.length := by
  induction n generalizing bs hash with
  | zero => rfl
  | succ n ih => rw [shaBlocks, ih, shaBlock, List.length_zipWith, length_shaRounds, Nat.min_self]

theorem length_sha256 (msg : List Byte) : (sha256 msg).length = 32 := by
  simp [sha256, List.length_flatMap, length_shaBlocks, shaInit]

/-! ### The loader's checks -/

/-- The size field of a file (70_reset_and_hazards.md R241). -/
def romSize (file : List Byte) : Nat := (field16 file 9).toNat

/-- The checks of R242: a whole header, the magic, a size field that agrees with the length
(70_reset_and_hazards.md R242). -/
structure HeaderAgrees (file : List Byte) : Prop where
  header : 17 ≤ file.length
  magic : slice file 0 6 = romMagic
  size_ge : 6 ≤ romSize file
  length : file.length = 11 + romSize file + 32

/-- The hash check (70_reset_and_hazards.md R244). -/
def HashAgrees (cfg : Config) (file : List Byte) : Prop :=
  cfg.verifyHash = true → sha256 (slice file 11 (romSize file)) = slice file (11 + romSize file) 32

/-- The contents the loader reads from a file it accepts (70_reset_and_hazards.md R241, R243). -/
def romOf (file : List Byte) : Rom where
  versionMajor := file.getD 6 0x00#8
  versionIntermediate := file.getD 7 0x00#8
  versionMinor := file.getD 8 0x00#8
  initAddr := field16 file 11
  panicAddr := field16 file 13
  endAddr := field16 file 15
  stream := slice file 17 (romSize file - 6)

variable {cfg : Config} {file : List Byte} {rom : Rom}

theorem readRom_of_not_headerAgrees (h : ¬ HeaderAgrees file) : readRom cfg file = .error .malformedRom := by
  unfold readRom
  split
  · rfl
  next hheader =>
    split
    · rfl
    next hmagic =>
      rw [if_pos]
      by_contra hsize
      rw [not_or, not_lt, not_not] at hsize
      exact h ⟨not_lt.1 hheader, not_not.1 hmagic, hsize.1, hsize.2⟩

/-- Past the checks of R242 the size limit and the hash are left (70_reset_and_hazards.md R244, R249; log entry 11). -/
theorem readRom_of_headerAgrees (h : HeaderAgrees file) :
    readRom cfg file =
      if cfg.maxRomSize.toNat < romSize file then .error .romFull
      else if cfg.verifyHash ∧
          sha256 (slice file 11 (romSize file)) ≠ slice file (11 + romSize file) 32 then .error .malformedRom
      else .ok (romOf file) := by
  have hsize : ¬ (romSize file < 6 ∨ file.length ≠ 11 + romSize file + 32) :=
    not_or.2 ⟨not_lt.2 h.size_ge, not_not.2 h.length⟩
  rw [readRom, if_neg (not_lt.2 h.header), if_neg (not_not.2 h.magic)]
  exact if_neg hsize

theorem readRom_of_not_hashAgrees (hheader : HeaderAgrees file) (hmax : romSize file ≤ cfg.maxRomSize.toNat)
    (hhash : ¬ HashAgrees cfg file) : readRom cfg file = .error .malformedRom := by
  rw [readRom_of_headerAgrees hheader, if_neg (not_lt.2 hmax), if_pos (Classical.not_imp.1 hhash)]

/-- The loader accepts a file exactly when all its checks pass. -/
theorem readRom_eq_ok :
    readRom cfg file = .ok rom ↔
      HeaderAgrees file ∧ romSize file ≤ cfg.maxRomSize.toNat ∧ HashAgrees cfg file ∧ rom = romOf file := by
  constructor
  · intro h
    by_cases hheader : HeaderAgrees file
    · rw [readRom_of_headerAgrees hheader] at h
      split at h
      · cases h
      next hmax =>
        split at h
        · cases h
        next hhash =>
          cases h
          exact ⟨hheader, not_lt.1 hmax, fun hv => by_contra fun hne => hhash ⟨hv, hne⟩, rfl⟩
    · rw [readRom_of_not_headerAgrees hheader] at h
      cases h
  · rintro ⟨hheader, hmax, hhash, rfl⟩
    rw [readRom_of_headerAgrees hheader, if_neg (not_lt.2 hmax), if_neg fun ⟨hv, hne⟩ => hne (hhash hv)]

/-- An accepted image fits in memory, with room for the three addresses: its size is a 16-bit number. -/
theorem length_stream_lt (h : readRom cfg file = .ok rom) : rom.stream.length < 65536 := by
  obtain ⟨-, -, -, rfl⟩ := readRom_eq_ok.1 h
  have hlength : (romOf file).stream.length ≤ romSize file - 6 := List.length_take_le _ _
  have hsize : romSize file < 65536 := (field16 file 9).isLt
  omega

/-- Settles O55: each clause is a check of R242 that fails, but for the hash, which is the last check left. -/
theorem malformedRomsAreRejected : Obligations.MalformedRomsAreRejected := by
  intro cfg file h
  by_cases hheader : HeaderAgrees file
  · rcases h with hshort | hmagic | hsmall | hlength | ⟨hverify, hmax, hhash⟩
    · exact absurd hheader.header (not_le.2 hshort)
    · exact absurd hheader.magic hmagic
    · exact absurd hheader.size_ge (not_le.2 hsmall)
    · exact absurd hheader.length hlength
    · refine readRom_of_not_hashAgrees hheader hmax fun hagrees => hhash ((hagrees hverify).trans ?_)
      have hlast : (file.drop (11 + romSize file)).length ≤ 32 := by
        rw [List.length_drop, hheader.length]
        omega
      exact List.take_of_length_le hlast
  · exact readRom_of_not_headerAgrees hheader

/-! ### The image copy -/

/-- Placed bytes reach memory alone. -/
theorem placeBytes_eq_setMem (bs : List Byte) (p : Addr) (s : State) :
    ∃ mem, placeBytes bs p s = s.setMem mem := by
  induction bs generalizing p s with
  | nil => exact ⟨s.mem, rfl⟩
  | cons b bs ih => exact ih (p + 1#16) (s.setByte p b)

/-- After bytes are placed from `p` on, the byte at `q` is the placed one at the distance of `q` from `p`, and the old
one when the distance is past the last (addresses wrap, so the bytes must not overlap themselves). -/
theorem placeBytes_byteAt {bs : List Byte} (p q : Addr) (s : State) (h : bs.length ≤ 65536) :
    (placeBytes bs p s).byteAt q = bs.getD (q - p).toNat (s.byteAt q) := by
  induction bs generalizing p s with
  | nil => rfl
  | cons b bs ih =>
    rw [List.length_cons] at h
    rw [placeBytes, ih (p + 1#16) (s.setByte p b) (by omega)]
    by_cases hq : q = p
    · subst hq
      have hlast : (q - (q + 1#16)).toNat = 65535 := by bv_omega
      have hself : (q - q).toNat = 0 := by bv_omega
      rw [hlast, hself, List.getD_eq_default _ _ (by omega), State.byteAt_setByte_same, List.getD_cons_zero]
    · have hnext : (q - p).toNat = (q - (p + 1#16)).toNat + 1 := by bv_omega
      rw [hnext, List.getD_cons_succ, State.byteAt_setByte_other s p q b hq]

/-- The image copy succeeds exactly when every byte may be written, and then it has placed the image
(70_reset_and_hazards.md R245). -/
theorem copyImage_eq_some {bs : List Byte} {p : Addr} {s t : State} :
    copyImage bs p s = some t ↔
      (∀ k, k < bs.length → permitted s.cfg.regions (p + BitVec.ofNat 16 k) .write = true) ∧
        t = placeBytes bs p s := by
  induction bs generalizing p s with
  | nil => exact ⟨fun h => ⟨nofun, (Option.some.inj h).symm⟩, fun ⟨_, h⟩ => congrArg some h.symm⟩
  | cons b bs ih =>
    rw [List.length_cons, Nat.forall_lt_succ_left, BitVec.add_zero]
    rcases memWrite_cases s p b .write with ⟨hp, hw⟩ | ⟨hp, hw⟩
    · simp only [copyImage, placeBytes, hw, ih, State.setByte_cfg, hp, addr_add_ofNat_succ, true_and]
    · simp [copyImage, hw, hp]

/-! ### The boot -/

/-- The state before the first step: the reset state with the image from address 0 on (70_reset_and_hazards.md R245,
R246). -/
def bootedState (cfg : Config) (rom : Rom) : State :=
  placeBytes rom.stream 0x0000#16 (State.resetWith (bootConfig cfg rom) [])

/-- From address 0 on, the image copy asks for a write permission at every address below the image's length. -/
theorem copyImage_reset_eq_some {s : State} (h : rom.stream.length < 65536) :
    copyImage rom.stream 0x0000#16 (State.resetWith (bootConfig cfg rom) []) = some s ↔
      (∀ addr : Addr, addr.toNat < rom.stream.length → permitted cfg.regions addr .write = true) ∧
        s = bootedState cfg rom := by
  rw [copyImage_eq_some]
  refine and_congr_left fun _ => ⟨fun hp addr haddr => ?_, fun hp k hk => ?_⟩
  · simpa [State.resetWith, bootConfig] using hp addr.toNat haddr
  · rw [BitVec.zero_add]
    refine hp _ ?_
    rwa [BitVec.toNat_ofNat, Nat.mod_eq_of_lt (hk.trans h)]

/-- A boot succeeds exactly when the table is admitted, the loader accepts the file and no rule denies a byte of the
image (70_reset_and_hazards.md R240, R245; log entry 12). -/
theorem boot_eq_ok {s : State} :
    boot cfg file = .ok s ↔
      cfg.isaTable.admitted = true ∧ ∃ rom, readRom cfg file = .ok rom ∧
        (∀ addr : Addr, addr.toNat < rom.stream.length → permitted cfg.regions addr .write = true) ∧
        s = bootedState cfg rom := by
  cases hadmitted : cfg.isaTable.admitted with
  | false => simp [boot, hadmitted]
  | true =>
    cases hread : readRom cfg file with
    | error e => simp [boot, hadmitted, hread]
    | ok rom =>
      have hcopy (t : State) := copyImage_reset_eq_some (cfg := cfg) (s := t) (length_stream_lt hread)
      cases hcopied : copyImage rom.stream 0x0000#16 (State.resetWith (bootConfig cfg rom) []) <;>
        simp [boot, hadmitted, hread, hcopied, ← hcopy]

/-- Settles O54: the copy, had it succeeded, would have been allowed to write the denied byte. -/
theorem deniedImageWriteFailsBoot : Obligations.DeniedImageWriteFailsBoot := by
  intro cfg file rom addr hadmitted hread haddr hdenied
  have hcopy : copyImage rom.stream 0x0000#16 (State.resetWith (bootConfig cfg rom) []) = none := by
    refine Option.eq_none_iff_forall_ne_some.2 fun s hs => ?_
    obtain ⟨hp, -⟩ := (copyImage_reset_eq_some (length_stream_lt hread)).1 hs
    exact Bool.false_ne_true (hdenied.symm.trans (hp addr haddr))
  simp [boot, hadmitted, hread, hcopy]

/-- Settles O52: the copy places the image in the memory of the reset state and touches nothing else. -/
theorem bootLeavesResetState : Obligations.BootLeavesResetState := by
  intro cfg file s h
  obtain ⟨-, rom, hread, -, hs⟩ := boot_eq_ok.1 h
  have hbytes (addr : Addr) : s.byteAt addr = rom.stream.getD addr.toNat 0x00#8 := by
    rw [hs, bootedState, placeBytes_byteAt _ _ _ (length_stream_lt hread).le, BitVec.sub_zero, resetWith_byteAt]
  obtain ⟨mem, hmem⟩ := placeBytes_eq_setMem rom.stream 0x0000#16 (State.resetWith (bootConfig cfg rom) [])
  obtain rfl : s = (State.resetWith (bootConfig cfg rom) []).setMem mem := hs.trans hmem
  exact ⟨rom, hread, rfl, rfl, rfl, rfl, rfl, rfl, rfl, rfl, rfl, rfl, rfl, hbytes⟩

/-! ### The file the ROM writer makes -/

theorem length_hashed (rom : Rom) : rom.hashed.length = 6 + rom.stream.length := by
  simp [Rom.hashed, bytes16]
  omega

/-- The bytes the ROM writer writes for an image that is not too large (70_reset_and_hazards.md R241). -/
def romBytes (rom : Rom) : List Byte :=
  romMagic ++ [rom.versionMajor, rom.versionIntermediate, rom.versionMinor] ++
    bytes16 (BitVec.ofNat 16 (6 + rom.stream.length)) ++ rom.hashed ++ sha256 rom.hashed

theorem writeRom_eq_ok :
    writeRom cfg rom = .ok file ↔ 6 + rom.stream.length ≤ cfg.maxRomSize.toNat ∧ file = romBytes rom := by
  unfold writeRom
  split
  next hmax => exact ⟨nofun, fun ⟨hle, _⟩ => absurd hle (not_le.2 hmax)⟩
  next hmax =>
    rw [Except.ok.injEq, eq_comm]
    exact (and_iff_right (not_lt.1 hmax)).symm

theorem length_romBytes (rom : Rom) : (romBytes rom).length = 11 + (6 + rom.stream.length) + 32 := by
  simp [romBytes, romMagic, bytes16, length_hashed, length_sha256]
  omega

theorem romSize_romBytes (h : 6 + rom.stream.length < 65536) : romSize (romBytes rom) = 6 + rom.stream.length := by
  have hfield : field16 (romBytes rom) 9 = BitVec.ofNat 16 (6 + rom.stream.length) := pair_highByte_lowByte _
  rw [romSize, hfield, BitVec.toNat_ofNat, Nat.mod_eq_of_lt h]

theorem drop_eleven_romBytes (rom : Rom) : (romBytes rom).drop 11 = rom.hashed ++ sha256 rom.hashed := rfl

theorem drop_seventeen_romBytes (rom : Rom) : (romBytes rom).drop 17 = rom.stream ++ sha256 rom.hashed := rfl

theorem headerAgrees_romBytes (h : 6 + rom.stream.length < 65536) : HeaderAgrees (romBytes rom) where
  header := by rw [length_romBytes]; omega
  magic := rfl
  size_ge := by rw [romSize_romBytes h]; omega
  length := by rw [romSize_romBytes h, length_romBytes]

/-- The loader hashes the bytes the writer hashed, and compares with the bytes the writer wrote after them. -/
theorem hashAgrees_romBytes (cfg : Config) (h : 6 + rom.stream.length < 65536) : HashAgrees cfg (romBytes rom) := by
  intro _
  have hhashed : slice (romBytes rom) 11 (6 + rom.stream.length) = rom.hashed := by
    rw [slice, drop_eleven_romBytes, ← length_hashed, List.take_left]
  have hhash : slice (romBytes rom) (11 + (6 + rom.stream.length)) 32 = sha256 rom.hashed := by
    rw [slice, ← List.drop_drop, drop_eleven_romBytes, ← length_hashed, List.drop_left,
      ← length_sha256 rom.hashed, List.take_length]
  rw [romSize_romBytes h, hhashed, hhash]

/-- The loader reads each field where the writer wrote it (70_reset_and_hazards.md R241, R243). -/
theorem romOf_romBytes (h : 6 + rom.stream.length < 65536) : romOf (romBytes rom) = rom := by
  have hinit : field16 (romBytes rom) 11 = rom.initAddr := pair_highByte_lowByte _
  have hpanic : field16 (romBytes rom) 13 = rom.panicAddr := pair_highByte_lowByte _
  have hend : field16 (romBytes rom) 15 = rom.endAddr := pair_highByte_lowByte _
  have hstream : slice (romBytes rom) 17 (romSize (romBytes rom) - 6) = rom.stream := by
    rw [romSize_romBytes h, Nat.add_sub_cancel_left, slice, drop_seventeen_romBytes, List.take_left]
  rw [romOf, hinit, hpanic, hend, hstream]
  rfl

theorem readRom_of_writeRom (h : writeRom cfg rom = .ok file) : readRom cfg file = .ok rom := by
  obtain ⟨hmax, rfl⟩ := writeRom_eq_ok.1 h
  have hsize : 6 + rom.stream.length < 65536 := hmax.trans_lt cfg.maxRomSize.isLt
  exact readRom_eq_ok.2 ⟨headerAgrees_romBytes hsize, by rwa [romSize_romBytes hsize],
    hashAgrees_romBytes cfg hsize, (romOf_romBytes hsize).symm⟩

/-- Settles O53: what the writer wrote the loader accepts, and every byte of the image may be written. -/
theorem writtenRomBoots : Obligations.WrittenRomBoots := by
  intro cfg rom file hadmitted hwrite hp
  have hread := readRom_of_writeRom hwrite
  exact ⟨hread, _, boot_eq_ok.2 ⟨hadmitted, rom, hread, hp, rfl⟩⟩

end Sys2Proof.Proofs
end
